-- ==== Sys2Proof/Word.lean ====
section
/-! DEFINITION. The widths the CORE computes on (00_scope.md R14 to R18). Bit `N-1` of a `BitVec N` is the most
significant one (R14), and `++` on bit vectors puts its left operand in the more significant bits (R15). -/

namespace Sys2Proof

/-- A byte: one buffer element, one character (R18). -/
abbrev Byte := BitVec 8

/-- A 6-bit value, the index of a character in an alphabet (30_encoding.md R64, R69). -/
abbrev Sextet := BitVec 6

/-- Three bytes or four 6-bit values (30_encoding.md R64, R68). -/
abbrev Group := BitVec 24

/-- The word written to `CMD` (30_encoding.md R56). -/
abbrev CmdWord := BitVec 2

end Sys2Proof
end

