-- ==== Sys2Proof/Config.lean ====
section
/-! DEFINITION. The parameters of the CORE (00_scope.md R9 to R11) and its free values: the values the spec leaves
unspecified ("any value", 93_implementation_defined.md U1 to U6). A free value has no body, so no proof can see it. -/

namespace Sys2Proof

/-- The OPEN parameter of one CORE (R9). `MAX_IN_LEN` is the capacity of the input buffer in bytes. The machine
carries it in `State.params`, which no step changes (DESIGN CHOICE, notes/assumptions/1.md). -/
structure Params where
  maxInLen : Nat
deriving DecidableEq, Repr

/-- R10: `MAX_OUT_LEN = 4 * ceil(MAX_IN_LEN / 3)`. -/
def Params.maxOutLen (p : Params) : Nat := 4 * ((p.maxInLen + 2) / 3)

/-- R11: `LEN_W`, the least width with `2^LEN_W > MAX_OUT_LEN`. -/
def Params.lenW (p : Params) : Nat := Nat.log2 p.maxOutLen + 1

/-- The capacity `State.reset` takes. R9 leaves it OPEN (DESIGN CHOICE, notes/assumptions/1.md). -/
def Config.resetParams : Params := { maxInLen := 64 }

/-- What an `IBUF` byte the host has not written since reset holds: any value (U4, U5), the same at every read
(20_memory.md R47) until the next reset. Arguments: the instance of the platform (notes/assumptions/15.md), how many resets
there have been, the index. -/
opaque Config.anyIbufByte : Nat → Nat → Nat → Byte

/-- What a host read of `OBUF` returns outside a `DONE` result: any value (U1, U2, U3, U6). Arguments: the instance of the
platform (notes/assumptions/15.md), how many such reads there have been. -/
opaque Config.anyObufByte : Nat → Nat → Byte

end Sys2Proof
end

