-- ==== Sys2Proof/Syntax.lean ====
section
/-! DEFINITION. The commands of the CORE (spec/opcode_table.json, 30_encoding.md R58) and the notation of host programs
(30_encoding.md R78, R79; 70_reset_and_hazards.md R141). -/

namespace Sys2Proof

/-- 00_scope.md R4: exactly two variants. -/
inductive Variant where
  | standard
  | urlSafe
deriving DecidableEq, Repr

/-- The four commands, one constructor per row of the opcode table. No command has an operand field (R61). -/
inductive Instr where
  | encodeStd
  | decodeStd
  | encodeUrl
  | decodeUrl
deriving DecidableEq, Repr

/-- 10_state.md R22, 30_encoding.md R56: the command's `OP` is 1. -/
def Instr.isDecode : Instr → Bool
  | .encodeStd => false
  | .decodeStd => true
  | .encodeUrl => false
  | .decodeUrl => true

/-- 30_encoding.md R57, R58: the command's variant. -/
def Instr.variant : Instr → Variant
  | .encodeStd => .standard
  | .decodeStd => .standard
  | .encodeUrl => .urlSafe
  | .decodeUrl => .urlSafe

/-- What a host can read (70_reset_and_hazards.md R141). -/
inductive Port where
  | cmd
  | inLen
  | status
  | outLen
  | errByte
  | ibuf (i : Nat)
  | obuf (j : Nat)
deriving DecidableEq, Repr

/-- One item of a host program: the actions of R141, and the notation of R78 and R79 that depends on what the host has
read (WAIT, READ, RECODE). The bytes of a `CMD` write are those the host's bus presents, low bits first
(notes/assumptions/8.md). -/
inductive HostAction where
  /-- write `IBUF[i]` -/
  | writeIbuf (i : Nat) (v : Byte)
  /-- write `IN_LEN` -/
  | writeInLen (n : Nat)
  /-- write `CMD`: the issue alone (41_engine.md R88); the engine's steps follow, one a turn -/
  | writeCmd (word : List Byte)
  /-- write `CMD` and leave the CORE alone until the command ends: the whole command as one step (R48, R93;
  notes/assumptions/7.md) -/
  | command (word : List Byte)
  /-- write the read-only `STATUS` -/
  | writeStatus (v : Byte)
  /-- write the read-only `OUT_LEN` -/
  | writeOutLen (n : Nat)
  /-- write the read-only `ERR_BYTE` -/
  | writeErrByte (v : Byte)
  /-- write the read-only `OBUF[j]` -/
  | writeObuf (j : Nat) (v : Byte)
  /-- read a register or a buffer byte -/
  | read (p : Port)
  /-- assert reset (R136) -/
  | assertReset
  /-- WAIT: read `STATUS` until its phase is not BUSY (R78) -/
  | wait
  /-- READ: read `STATUS`, `OUT_LEN`, `ERR_BYTE`, `OBUF[0..OUT_LEN-1]` (R78) -/
  | readResult
  /-- `IBUF[j] <- OBUF[j]`, the element of RECODE (R79) -/
  | copyByte (j : Nat)
  /-- RECODE of a command (R79) -/
  | recode (word : List Byte)
deriving DecidableEq, Repr

/-- Who acts (41_engine.md R87). -/
inductive Agent where
  | host
  | engine
deriving DecidableEq, Repr

end Sys2Proof
end

