-- ==== Sys2Proof/WellFormed.lean ====
section
/-! DEFINITION. What is well formed: the parameters (00_scope.md R9), a command (30_encoding.md R59), the bytes of a
command word (R56) and a host action on a CORE of given parameters (70_reset_and_hazards.md R141). -/

namespace Sys2Proof

/-- R9: `MAX_IN_LEN >= 1`. -/
def Params.wf (p : Params) : Bool := decide (1 ≤ p.maxInLen)

/-- R59: no command word is reserved or illegal, and R61: a command has no operand, so every command is well formed. -/
def Instr.wf : Instr → Bool
  | .encodeStd => true
  | .decodeStd => true
  | .encodeUrl => true
  | .decodeUrl => true

/-- R56: the bytes hold a 2-bit word and nothing above it. -/
def commandWordWf : List Byte → Bool
  | [] => false
  | b :: rest => decide (b.toNat < 4) && rest.all (fun c => c == 0#8)

/-- Every index a port names is in range (R141). -/
def Port.wf (p : Params) : Port → Bool
  | .cmd => true
  | .inLen => true
  | .status => true
  | .outLen => true
  | .errByte => true
  | .ibuf i => decide (i < p.maxInLen)
  | .obuf j => decide (j < p.maxOutLen)

/-- The part of R141 that does not depend on the phase: indices in range, an `IN_LEN` value of `LEN_W` bits, a 2-bit
command word, and no write of a read-only register or of `OBUF`. -/
def HostAction.wf (p : Params) : HostAction → Bool
  | .writeIbuf i _ => decide (i < p.maxInLen)
  | .writeInLen n => decide (n < 2 ^ p.lenW)
  | .writeCmd word => commandWordWf word
  | .command word => commandWordWf word
  | .writeStatus _ => false
  | .writeOutLen _ => false
  | .writeErrByte _ => false
  | .writeObuf _ _ => false
  | .read port => port.wf p
  | .assertReset => true
  | .wait => true
  | .readResult => true
  | .copyByte j => decide (j < p.maxInLen)
  | .recode word => commandWordWf word

end Sys2Proof
end

