-- ==== Sys2Proof/Decode.lean ====
section
/-! DEFINITION. The command word (30_encoding.md R56 to R60): its decoder and its encoder, both from R58's table. -/

namespace Sys2Proof

/-- Why bytes hold no command word. -/
inductive DecodeError where
  /-- no byte at all -/
  | noWord
  /-- a bit above the 2-bit word is set; which bits of a wider host write are taken is `HOST_BUS` (R59, R13), so such
  a write is refused (DESIGN CHOICE, safe, notes/assumptions/8.md) -/
  | bitsAboveWord
deriving DecidableEq, Repr

/-- R58: every 2-bit word selects exactly one row. Bit 0 is `OP`, bit 1 is `VAR` (R56). -/
def decodeWord (w : CmdWord) : Instr :=
  match w.getLsbD 1, w.getLsbD 0 with
  | false, false => .encodeStd
  | false, true => .decodeStd
  | true, false => .encodeUrl
  | true, true => .decodeUrl

/-- The command the bytes of a host write name, low bits first. -/
def decode : List Byte → Except DecodeError Instr
  | [] => .error .noWord
  | b :: rest =>
    if b.toNat < 4 ∧ rest.all (fun c => c == 0#8) then .ok (decodeWord (b.extractLsb 1 0))
    else .error .bitsAboveWord

/-- R58, the first column of the table. -/
def encodeWord : Instr → CmdWord
  | .encodeStd => 0b00#2
  | .decodeStd => 0b01#2
  | .encodeUrl => 0b10#2
  | .decodeUrl => 0b11#2

/-- The bytes of the host write that issues a command. -/
def encode (i : Instr) : List Byte := [(encodeWord i).setWidth 8]

/-- R57: the variant a command word names in bit 1. -/
def wordVariant (w : CmdWord) : Variant := if w.getLsbD 1 then .urlSafe else .standard

/-- The bytes that hold the low `nbits` bits of `w`, low bits first. -/
def wordBytes (nbits w : Nat) : List Byte :=
  (List.range ((nbits + 7) / 8)).map (fun k => BitVec.ofNat 8 (w / 256 ^ k))

/-- The command the decoder reads from an instruction of the opcode table whose bits are `w`. -/
def decodeTableWord (nbits w : Nat) : Option Instr :=
  match decode (wordBytes nbits w) with
  | .ok i => some i
  | .error _ => none

end Sys2Proof
end

