-- ==== Sys2Proof/Machine/State.lean ====
section
/-! DEFINITION. The state of one CORE (10_state.md), of the host that drives it, and the reset state
(70_reset_and_hazards.md R136). -/

namespace Sys2Proof.Machine

/-- A buffer: the bytes written since reset, as (index, byte) pairs with strictly rising indices. An index that is not
listed has not been written since reset. -/
abbrev Memory := List Host.Cell

/-- `STATUS.PHASE` (R24). -/
inductive Phase where
  | idle
  | busy
  | done
  | error
deriving DecidableEq, Repr

/-- `STATUS.REASON` (30_encoding.md R62). Codes 6 and 7 are reserved and never produced (R63), so they have no name. -/
inductive Reason where
  | none
  | emptyInput
  | badLength
  | disallowedChar
  | unrecognizedChar
  | invalidShift
deriving DecidableEq, Repr

/-- `ESTAGE` (R30). -/
inductive EStage where
  | check
  | scan
  | tail
deriving DecidableEq, Repr

/-- One read of the host: what it read and the value it got (70_reset_and_hazards.md R141). -/
structure Seen where
  port  : Port
  value : Nat
deriving DecidableEq, Repr

/-- One CORE and its host. A register of `LEN_W` bits is a Nat below `2^LEN_W` (notes/assumptions/2.md). -/
structure State where
  /-- the parameter `MAX_IN_LEN` (00_scope.md R9); no step changes it -/
  params  : Params
  /-- `CMD` (R22) -/
  cmd     : CmdWord
  /-- `IN_LEN` (R23) -/
  inLen   : Nat
  /-- `STATUS.PHASE` (R24) -/
  phase   : Phase
  /-- `STATUS.REASON` (R25) -/
  reason  : Reason
  /-- `OUT_LEN` (R27) -/
  outLen  : Nat
  /-- `ERR_BYTE` (R28) -/
  errByte : Byte
  /-- `ESTAGE` (R30) -/
  estage  : EStage
  /-- `POS` (R31) -/
  pos     : Nat
  /-- `WPTR` (R32) -/
  wptr    : Nat
  /-- `EBUF` (R33) -/
  ebuf    : BitVec 16
  /-- `ECNT` (R33) -/
  ecnt    : BitVec 2
  /-- `DACC` (R34) -/
  dacc    : Group
  /-- `DSHIFT` (R34) -/
  dshift  : BitVec 2
  /-- `IBUF` (R37) -/
  ibuf    : Memory
  /-- `OBUF` (R38) -/
  obuf    : Memory
  /-- the host's pending actions, oldest first (the model's own field, notes/assumptions/13.md) -/
  script  : List HostAction
  /-- who moves next, as far as that is fixed (41_engine.md R87; the model's own field, notes/assumptions/5.md) -/
  turns   : List Agent
  /-- what the host has read, newest first (the model's own field, notes/assumptions/13.md) -/
  seen    : List Seen
  /-- how many unspecified `OBUF` bytes the host has read (the model's own field, notes/assumptions/4.md) -/
  draws   : Nat
  /-- how many times reset was asserted (the model's own field, notes/assumptions/3.md) -/
  epoch   : Nat
  /-- which instance of its platform the CORE is (60_exceptions.md R133: the CORE itself defines no identifier; the model's
  own field, an argument of the free values, notes/assumptions/15.md); no step changes it -/
  inst    : Nat
deriving DecidableEq, Repr

/-- Why the machine stops with a fault. The spec has none ("No access can fault: every index the engine forms is in
range", 20_memory.md R50), and no state that a run reaches raises one (notes/assumptions/11.md). -/
inductive Fault where
  /-- raised by READ_IN when `POS` is no index of `IBUF`; safe: an address the spec says does not exist -/
  | ibufReadOutOfRange
  /-- raised by EMIT when `WPTR` is no index of `OBUF`; safe: an address the spec says does not exist -/
  | obufWriteOutOfRange
deriving DecidableEq, Repr

/-- Why a host action gets no meaning (70_reset_and_hazards.md R140). All are safe: the run ends. -/
inductive Refusal where
  /-- raised by the dispatch for a command that has no meaning in this model; safe -/
  | notModelled (mnemonic : String)
  /-- raised by a write of `CMD` while BUSY (R142); safe -/
  | issueWhileBusy
  /-- raised by a write of `CMD` with `IN_LEN > MAX_IN_LEN` (R145); safe -/
  | oversizedInput
  /-- raised by a write of `CMD` whose bytes are no 2-bit word: `HOST_BUS` (R59); safe -/
  | notACommandWord
  /-- raised by a write of `IBUF` or `IN_LEN` while BUSY (R143); safe -/
  | inputChangeWhileBusy
  /-- raised by a write of `IN_LEN` of a value wider than `LEN_W` bits: `HOST_BUS` (R13); safe -/
  | valueTooWide
  /-- raised by a write of `STATUS`, `OUT_LEN`, `ERR_BYTE` or `OBUF` (R141); safe -/
  | readOnly
  /-- raised by an access to `IBUF[i]`, `i >= MAX_IN_LEN`, or `OBUF[j]`, `j >= MAX_OUT_LEN` (R141); safe -/
  | indexOutOfRange
  /-- raised by RECODE outside phase DONE (30_encoding.md R79); safe -/
  | recodeOutsideDone
deriving DecidableEq, Repr

/-- The state right after reset (R136) of a CORE with parameters `p`. `IBUF` and `OBUF` are unspecified: nothing is
listed. The host's fields are empty, the two counters 0, and the instance is the platform's first, 0 (DESIGN CHOICE,
notes/assumptions/17.md). -/
def State.resetFor (p : Params) : State where
  params := p
  cmd := 0b00#2
  inLen := 0
  phase := .idle
  reason := .none
  outLen := 0
  errByte := 0x00#8
  estage := .check
  pos := 0
  wptr := 0
  ebuf := 0#16
  ecnt := 0#2
  dacc := 0#24
  dshift := 0#2
  ibuf := []
  obuf := []
  script := []
  turns := []
  seen := []
  draws := 0
  epoch := 0
  inst := 0

/-- The machine right after reset, at the capacity of `Config.resetParams` (notes/assumptions/1.md). -/
def State.reset : State := State.resetFor Config.resetParams

end Sys2Proof.Machine
end

