-- ==== Sys2Proof/Machine/Flags.lean ====
section
/-! DEFINITION. The `STATUS` register (10_state.md R24 to R26, 30_encoding.md R62): its codes and its word. -/

namespace Sys2Proof.Machine

/-- The code of a phase (R24). -/
def Phase.code : Phase → BitVec 2
  | .idle => 0
  | .busy => 1
  | .done => 2
  | .error => 3

/-- The code of a reason (R62). -/
def Reason.code : Reason → BitVec 3
  | .none => 0
  | .emptyInput => 1
  | .badLength => 2
  | .disallowedChar => 3
  | .unrecognizedChar => 4
  | .invalidShift => 5

/-- `STATUS` as the host reads it: PHASE in [1:0] (R24), REASON in [4:2] (R25), bits [7:5] always 0 (R26). -/
def statusWord (s : State) : Byte := 0#3 ++ s.reason.code ++ s.phase.code

/-- The status and result registers at issue (41_engine.md R88). -/
def statusAtIssue (s : State) : State :=
  { s with phase := .busy, reason := .none, outLen := 0, errByte := 0x00 }

/-- The status and result registers at a successful end (41_engine.md R92): REASON and ERR_BYTE stay as they are. -/
def statusDone (s : State) : State :=
  { s with outLen := s.wptr, phase := .done }

/-- The status and result registers at an error (60_exceptions.md R124). -/
def statusError (reason : Reason) (byte : Byte) (s : State) : State :=
  { s with reason := reason, errByte := byte, outLen := 0, phase := .error }

end Sys2Proof.Machine
end

