-- ==== Sys2Proof/Machine/Memory.lean ====
section
/-! DEFINITION. The two byte buffers as lists in canonical form (20_memory.md R42, R45, R47): every access moves one byte. -/

namespace Sys2Proof.Machine

/-- The canonical form: indices strictly rising. Every listed byte was written; none stands for an unwritten one. -/
abbrev Memory.wf (m : Memory) : Prop := m.Pairwise (fun c d => c.1 < d.1)

/-- Every listed index is below `n`, the capacity of the buffer (R42). -/
abbrev Memory.within (m : Memory) (n : Nat) : Prop := ∀ c ∈ m, c.1 < n

/-- The byte written at an index since reset, if any. -/
def Memory.read : Memory → Nat → Option Byte
  | [], _ => none
  | (k, v) :: rest, a => if a = k then some v else Memory.read rest a

/-- Write one byte. -/
def Memory.write : Memory → Nat → Byte → Memory
  | [], a, b => [(a, b)]
  | (k, v) :: rest, a, b =>
    if a < k then (a, b) :: (k, v) :: rest
    else if a = k then (a, b) :: rest
    else (k, v) :: Memory.write rest a b

end Sys2Proof.Machine
end

