-- ==== Sys2Proof/Machine/Table.lean ====
section
/-! DEFINITION. The `alphabet_lookup_table` (40_alphabet_lookup_table.md): the constant tables and the ports FWD, REV
and CLASSIFY. The tables are constants that no command and no host action writes (R85). -/

namespace Sys2Proof.Machine

/-- `A` to `Z`, indices 0 to 25 (30_encoding.md R73). -/
def alphaUpper : List Byte :=
  [0x41, 0x42, 0x43, 0x44, 0x45, 0x46, 0x47, 0x48, 0x49, 0x4A, 0x4B, 0x4C, 0x4D,
   0x4E, 0x4F, 0x50, 0x51, 0x52, 0x53, 0x54, 0x55, 0x56, 0x57, 0x58, 0x59, 0x5A]

/-- `a` to `z`, indices 26 to 51. -/
def alphaLower : List Byte :=
  [0x61, 0x62, 0x63, 0x64, 0x65, 0x66, 0x67, 0x68, 0x69, 0x6A, 0x6B, 0x6C, 0x6D,
   0x6E, 0x6F, 0x70, 0x71, 0x72, 0x73, 0x74, 0x75, 0x76, 0x77, 0x78, 0x79, 0x7A]

/-- `0` to `9`, indices 52 to 61. -/
def alphaDigit : List Byte :=
  [0x30, 0x31, 0x32, 0x33, 0x34, 0x35, 0x36, 0x37, 0x38, 0x39]

/-- `ALPHA_STD` (R70): index 62 is `+`, 63 is `/`. -/
def alphaStd : List Byte := alphaUpper ++ alphaLower ++ alphaDigit ++ [0x2B, 0x2F]

/-- `ALPHA_URL` (R71): index 62 is `-`, 63 is `_`. -/
def alphaUrl : List Byte := alphaUpper ++ alphaLower ++ alphaDigit ++ [0x2D, 0x5F]

/-- R80: `FWD(var, i)`. Each alphabet has 64 entries, so the index is always in range. -/
def fwd (var : Variant) (i : Sextet) : Byte :=
  match var with
  | .standard => alphaStd.getD i.toNat 0
  | .urlSafe => alphaUrl.getD i.toNat 0

/-- The padding character `'='` (R67, R73). -/
def padChar : Byte := 0x3D

/-- A valid `REV` entry (R76): bit 6 is VALID, bits [5:0] are VALUE. -/
def revValid (v : Nat) : BitVec 7 := 1#1 ++ BitVec.ofNat 6 v

/-- R81: `REV(c)`, by the byte ranges of 30_encoding.md R75. An invalid entry is 0 (R76). -/
def rev (c : Byte) : BitVec 7 :=
  let n := c.toNat
  if n = 0x2B then revValid 62
  else if n = 0x2D then revValid 62
  else if n = 0x2F then revValid 63
  else if 0x30 ≤ n ∧ n ≤ 0x39 then revValid (n + 4)
  else if 0x41 ≤ n ∧ n ≤ 0x5A then revValid (n - 0x41)
  else if n = 0x5F then revValid 63
  else if 0x61 ≤ n ∧ n ≤ 0x7A then revValid (n - 0x47)
  else 0#7

/-- `REV(c).VALID` (R76). -/
def revIsValid (c : Byte) : Bool := (rev c).getLsbD 6

/-- `REV(c).VALUE` (R76). -/
def revValue (c : Byte) : Sextet := (rev c).extractLsb 5 0

/-- The character classes of a decode (30_encoding.md R77). -/
inductive CharClass where
  | pad
  | disallowed
  | invalid
  | value (v : Sextet)
deriving DecidableEq, Repr

/-- R82: `CLASSIFY(var, c)`. -/
def classify (var : Variant) (c : Byte) : CharClass :=
  if c = padChar then .pad
  else if var = .urlSafe ∧ (c = 0x2B ∨ c = 0x2F) then .disallowed
  else if var = .standard ∧ (c = 0x2D ∨ c = 0x5F) then .disallowed
  else if revIsValid c = false then .invalid
  else .value (revValue c)

end Sys2Proof.Machine
end

