-- ==== Sys2Proof/Machine/Operands.lean ====
section
/-! DEFINITION. The operands of a command, which are all implicit (30_encoding.md R61): the fields of `CMD`, the input
bytes, and the values assembled from bits (R64 to R69). -/

namespace Sys2Proof.Machine

/-- `CMD.VAR` (10_state.md R22, 30_encoding.md R57). -/
def State.variant (s : State) : Variant := wordVariant s.cmd

/-- `CMD.OP = 1` (R22): the command is a DECODE. -/
def State.isDecode (s : State) : Bool := s.cmd.getLsbD 0

/-- `IBUF[i]`. A byte the host has not written since reset holds any value (70_reset_and_hazards.md R139, U5), the same
at every read (R47). -/
def State.ibufByte (s : State) (i : Nat) : Byte :=
  (Memory.read s.ibuf i).getD (Config.anyIbufByte s.inst s.epoch i)

/-- The input of a command, `IBUF[0..IN_LEN-1]` (R61, R43). -/
def State.input (s : State) : List Byte := (List.range s.inLen).map s.ibufByte

/-- R64: the four 6-bit values of a full group `g = b0 ++ b1 ++ b2`. -/
def groupSextets (g : Group) : List Sextet :=
  [g.extractLsb 23 18, g.extractLsb 17 12, g.extractLsb 11 6, g.extractLsb 5 0]

/-- R65: the two values of a one-byte tail. -/
def tailSextets₁ (b0 : Byte) : List Sextet :=
  [b0.extractLsb 7 2, b0.extractLsb 1 0 ++ 0b0000#4]

/-- R66: the three values of a two-byte tail (16 bits and two zero bits, 90_conflicts.md C1). -/
def tailSextets₂ (b0 b1 : Byte) : List Sextet :=
  [b0.extractLsb 7 2, b0.extractLsb 1 0 ++ b1.extractLsb 7 4, b1.extractLsb 3 0 ++ 0b00#2]

/-- R67: `k` padding characters under Standard, none under UrlSafe. -/
def padding (var : Variant) (k : Nat) : List Byte :=
  match var with
  | .standard => List.replicate k padChar
  | .urlSafe => []

/-- R68: the three bytes of a full decode group. -/
def groupBytes (a : Group) : List Byte :=
  [a.extractLsb 23 16, a.extractLsb 15 8, a.extractLsb 7 0]

/-- R69, two values left: the top 8 of the 12 accumulated bits. -/
def tailBytes₂ (a : Group) : List Byte := [a.extractLsb 11 4]

/-- R69, three values left: the top 16 of the 18 accumulated bits. -/
def tailBytes₃ (a : Group) : List Byte := [a.extractLsb 17 10, a.extractLsb 9 2]

/-- 43_decoder.md R113, the shift of the accumulator: `((acc << 6) | zext_24(v)) mod 2^24`. -/
def shiftIn (acc : Group) (v : Sextet) : Group := (acc <<< 6) ||| v.setWidth 24

end Sys2Proof.Machine
end

