-- ==== Sys2Proof/Machine/Ops.lean ====
section
/-! DEFINITION. The operations the commands share: issue (41_engine.md R88), input read (R90), output write (R91), the
two completions (R92, 60_exceptions.md R124), reset (70_reset_and_hazards.md R136), and the host's accesses (R141). -/

namespace Sys2Proof.Machine

/-- R88: the host writes the word `w` to `CMD`. Refused while BUSY (R142) and with `IN_LEN > MAX_IN_LEN` (R145);
legal in IDLE, DONE and ERROR alike. -/
def issue (w : CmdWord) (s : State) : Except Refusal State :=
  if s.phase = .busy then .error .issueWhileBusy
  else if s.params.maxInLen < s.inLen then .error .oversizedInput
  else .ok { statusAtIssue s with
    cmd := w, estage := .check, pos := 0, wptr := 0, ebuf := 0, ecnt := 0, dacc := 0, dshift := 0 }

/-- R90: `READ_IN()`. An index outside `IBUF` does not exist (20_memory.md R42); no reachable state forms one (R50). -/
def readIn (s : State) : Except Fault (Byte × State) :=
  if s.pos < s.params.maxInLen then .ok (s.ibufByte s.pos, { s with pos := s.pos + 1 })
  else .error .ibufReadOutOfRange

/-- R91: `EMIT(b)`. An index outside `OBUF` does not exist (R42); no reachable state forms one (R50). -/
def emit (b : Byte) (s : State) : Except Fault State :=
  if s.wptr < s.params.maxOutLen then
    .ok { s with obuf := Memory.write s.obuf s.wptr b, wptr := s.wptr + 1 }
  else .error .obufWriteOutOfRange

/-- R91: several bytes, in the order listed. -/
def emitAll : List Byte → State → Except Fault State
  | [], s => .ok s
  | b :: rest, s =>
    match emit b s with
    | .error f => .error f
    | .ok s1 => emitAll rest s1

/-- R92: `FINISH_DONE()`. -/
def finishDone (s : State) : State := statusDone s

/-- R124: `FINISH_ERROR(reason, byte)`, the CORE's one exception (R121). There is no saved program counter, mode or
vector, and no return: the next issue clears it (R126). -/
def finishError (reason : Reason) (byte : Byte) (s : State) : State := statusError reason byte s

/-- `FINISH_DONE()` after the last output bytes of a command. -/
def emitAndFinish (bytes : List Byte) (s : State) : Except Fault State :=
  match emitAll bytes s with
  | .error f => .error f
  | .ok s1 => .ok (finishDone s1)

/-- R136, R137: assert reset, in any phase. Registers take their reset values, `IBUF` and `OBUF` become unspecified;
the host's own fields stay (notes/assumptions/18.md). -/
def assertReset (s : State) : State :=
  { State.resetFor s.params with
    script := s.script, turns := s.turns, seen := s.seen, draws := s.draws, epoch := s.epoch + 1,
    inst := s.inst }

/-- The host writes `IBUF[i]` (R141, R143). -/
def writeIbuf (i : Nat) (v : Byte) (s : State) : Except Refusal State :=
  if s.params.maxInLen ≤ i then .error .indexOutOfRange
  else if s.phase = .busy then .error .inputChangeWhileBusy
  else .ok { s with ibuf := Memory.write s.ibuf i v }

/-- The host writes `IN_LEN`, any `LEN_W`-bit value (R141, R143). -/
def writeInLen (n : Nat) (s : State) : Except Refusal State :=
  if 2 ^ s.params.lenW ≤ n then .error .valueTooWide
  else if s.phase = .busy then .error .inputChangeWhileBusy
  else .ok { s with inLen := n }

/-- What a host read of `OBUF[j]` returns (R141, R144): the result byte if `PHASE = DONE` and `j < OUT_LEN`, otherwise
any value, a new one at each read. -/
def readObuf (j : Nat) (s : State) : Byte × State :=
  if s.phase = .done ∧ j < s.outLen then
    ((Memory.read s.obuf j).getD (Config.anyObufByte s.inst s.draws), s)
  else (Config.anyObufByte s.inst s.draws, { s with draws := s.draws + 1 })

/-- R141: the host reads a port: current value, exact, but for `OBUF`. -/
def readPort (port : Port) (s : State) : Except Refusal (Nat × State) :=
  match port with
  | .cmd => .ok (s.cmd.toNat, s)
  | .inLen => .ok (s.inLen, s)
  | .status => .ok ((statusWord s).toNat, s)
  | .outLen => .ok (s.outLen, s)
  | .errByte => .ok (s.errByte.toNat, s)
  | .ibuf i => if i < s.params.maxInLen then .ok ((s.ibufByte i).toNat, s) else .error .indexOutOfRange
  | .obuf j =>
    if j < s.params.maxOutLen then .ok ((readObuf j s).1.toNat, (readObuf j s).2) else .error .indexOutOfRange

/-- A host read, recorded. -/
def observe (port : Port) (s : State) : Except Refusal State :=
  match readPort port s with
  | .error r => .error r
  | .ok (v, s1) => .ok { s1 with seen := { port := port, value := v } :: s1.seen }

end Sys2Proof.Machine
end

