-- ==== Sys2Proof/Machine/Decoder.lean ====
section
/-! DEFINITION. The `base64_decoder`: `DEC_STEP(var)` by stage (43_decoder.md R111 to R115). -/

namespace Sys2Proof.Machine

/-- R111. -/
def decCheck (var : Variant) (s : State) : Except Fault State :=
  if s.inLen = 0 then .ok (finishError .emptyInput 0x00 s)
  else if var = .standard ∧ s.inLen % 4 ≠ 0 then .ok (finishError .badLength 0x00 s)
  else .ok { s with estage := .scan }

/-- R114: `FLUSH()`. -/
def flush (s : State) : Except Fault State :=
  match emitAll (groupBytes s.dacc) s with
  | .error f => .error f
  | .ok s1 => .ok { s1 with dacc := 0 }

/-- R113: `ACCUMULATE(v)`. `DSHIFT` has two bits, so its sum is taken modulo 4, and the test is of the new value. -/
def accumulate (v : Sextet) (s : State) : Except Fault State :=
  let s1 := { s with dacc := shiftIn s.dacc v, dshift := s.dshift + 1 }
  if s1.dshift = 0#2 then flush s1 else .ok s1

/-- R112, a character read. -/
def decTake (var : Variant) (c : Byte) (s : State) : Except Fault State :=
  match classify var c with
  | .pad => .ok { s with estage := .tail }
  | .disallowed => .ok (finishError .disallowedChar c s)
  | .invalid => .ok (finishError .unrecognizedChar c s)
  | .value v => accumulate v s

/-- R112. -/
def decScan (var : Variant) (s : State) : Except Fault State :=
  if s.pos < s.inLen then
    match readIn s with
    | .error f => .error f
    | .ok (c, s1) => decTake var c s1
  else .ok { s with estage := .tail }

/-- R115. A count other than 0, 2, 3 is `INVALID_SHIFT`, never a success (R116, 92_eei_decisions.md D18). -/
def decTail (s : State) : Except Fault State :=
  if s.dshift = 0#2 then .ok (finishDone s)
  else if s.dshift = 2#2 then emitAndFinish (tailBytes₂ s.dacc) s
  else if s.dshift = 3#2 then emitAndFinish (tailBytes₃ s.dacc) s
  else .ok (finishError .invalidShift 0x00 s)

/-- `DEC_STEP(var)` (41_engine.md R89). -/
def decStep (var : Variant) (s : State) : Except Fault State :=
  match s.estage with
  | .check => decCheck var s
  | .scan => decScan var s
  | .tail => decTail s

end Sys2Proof.Machine
end

