-- ==== Sys2Proof/Machine/Encoder.lean ====
section
/-! DEFINITION. The `base64_encoder`: `ENC_STEP(var)` by stage (42_encoder.md R102 to R104). -/

namespace Sys2Proof.Machine

/-- R102. -/
def encCheck (s : State) : Except Fault State :=
  if s.inLen = 0 then .ok (finishError .emptyInput 0x00 s)
  else .ok { s with estage := .scan }

/-- R103, a byte read: hold it, or emit the full group it completes. -/
def encTake (var : Variant) (b : Byte) (s : State) : Except Fault State :=
  if s.ecnt.toNat < 2 then
    .ok { s with ebuf := s.ebuf.extractLsb 7 0 ++ b, ecnt := s.ecnt + 1 }
  else
    match emitAll ((groupSextets (s.ebuf ++ b)).map (fwd var)) s with
    | .error f => .error f
    | .ok s1 => .ok { s1 with ebuf := 0, ecnt := 0 }

/-- R103. -/
def encScan (var : Variant) (s : State) : Except Fault State :=
  if s.pos < s.inLen then
    match readIn s with
    | .error f => .error f
    | .ok (b, s1) => encTake var b s1
  else .ok { s with estage := .tail }

/-- R104, the bytes the tail emits. `ECNT = 3` never occurs (10_state.md R33); as R104 is written it emits nothing. -/
def encTailBytes (var : Variant) (s : State) : List Byte :=
  if s.ecnt = 1#2 then
    (tailSextets₁ (s.ebuf.extractLsb 7 0)).map (fwd var) ++ padding var 2
  else if s.ecnt = 2#2 then
    (tailSextets₂ (s.ebuf.extractLsb 15 8) (s.ebuf.extractLsb 7 0)).map (fwd var) ++ padding var 1
  else []

/-- R104. -/
def encTail (var : Variant) (s : State) : Except Fault State :=
  emitAndFinish (encTailBytes var s) s

/-- `ENC_STEP(var)` (41_engine.md R89). -/
def encStep (var : Variant) (s : State) : Except Fault State :=
  match s.estage with
  | .check => encCheck s
  | .scan => encScan var s
  | .tail => encTail var s

end Sys2Proof.Machine
end

