-- ==== Sys2Proof/Machine/Engine.lean ====
section
/-! DEFINITION. The engine (41_engine.md R87, R89) and a command run whole (R93, R94). -/

namespace Sys2Proof.Machine

/-- R89: the engine's step, dispatched on `CMD.OP` and `CMD.VAR`. In another phase than BUSY it has none: nothing
changes. -/
def engineStep (s : State) : Except Fault State :=
  if s.phase = .busy then
    if s.isDecode then decStep s.variant s else encStep s.variant s
  else .ok s

/-- At most `k` steps of the engine, which stops when the command has ended (70_reset_and_hazards.md R150). -/
def runEngine : Nat → State → Except Fault State
  | 0, s => .ok s
  | k + 1, s =>
    if s.phase = .busy then
      match engineStep s with
      | .error f => .error f
      | .ok s1 => runEngine k s1
    else .ok s

/-- R94: the most engine steps the command issued in `s` takes. -/
def stepBound (s : State) : Nat := s.inLen + 3

/-- A command run whole: its issue (R88) and the engine's steps to its end, with no host action between (R48, R93). -/
def runCommand (w : CmdWord) (s : State) : Host.Outcome State Fault Refusal :=
  match issue w s with
  | .error r => .refused r
  | .ok s1 =>
    match runEngine (stepBound s1) s1 with
    | .error f => .fault f
    | .ok t => .next t

end Sys2Proof.Machine
end

