-- ==== Sys2Proof/Machine/DecodeCommands.lean ====
section
/-! DEFINITION. The meanings of DECODE.STD and DECODE.URL (43_decoder.md R109, R110). -/

namespace Sys2Proof.Machine

/-- R109: `DECODE.STD`, the command word 0b01 (30_encoding.md R58). -/
def execDecodeStd (s : State) : Host.Outcome State Fault Refusal := runCommand 0b01#2 s

/-- R110: `DECODE.URL`, the command word 0b11 (R58). -/
def execDecodeUrl (s : State) : Host.Outcome State Fault Refusal := runCommand 0b11#2 s

end Sys2Proof.Machine
end

