-- ==== Sys2Proof/Machine/EncodeCommands.lean ====
section
/-! DEFINITION. The meanings of ENCODE.STD and ENCODE.URL (42_encoder.md R100, R101). -/

namespace Sys2Proof.Machine

/-- R100: `ENCODE.STD`, the command word 0b00 (30_encoding.md R58). -/
def execEncodeStd (s : State) : Host.Outcome State Fault Refusal := runCommand 0b00#2 s

/-- R101: `ENCODE.URL`, the command word 0b10 (R58). -/
def execEncodeUrl (s : State) : Host.Outcome State Fault Refusal := runCommand 0b10#2 s

end Sys2Proof.Machine
end

