-- ==== Sys2Proof/Machine/Dispatch.lean ====
section
/-! DEFINITION. One arm per command of the opcode table (30_encoding.md R58). -/

namespace Sys2Proof.Machine

def exec (i : Instr) (s : State) : Host.Outcome State Fault Refusal :=
  match i with
  | .encodeStd => Sys2Proof.Machine.execEncodeStd s
  | .decodeStd => Sys2Proof.Machine.execDecodeStd s
  | .encodeUrl => Sys2Proof.Machine.execEncodeUrl s
  | .decodeUrl => Sys2Proof.Machine.execDecodeUrl s

end Sys2Proof.Machine
end

