-- ==== Sys2Proof/Machine/HostAgent.lean ====
section
/-! DEFINITION. The host: its actions (70_reset_and_hazards.md R141) and the notation of test programs (30_encoding.md
R78, R79). -/

namespace Sys2Proof.Machine

/-- A host action that needs no engine step: it happens, or it is refused (R140). -/
def ofHost (r : Except Refusal State) : Host.Outcome State Fault Refusal :=
  match r with
  | .ok s => .next s
  | .error r => .refused r

/-- A bare write of `CMD`: the issue (41_engine.md R88), after which the engine has steps to take. -/
def issueBytes (word : List Byte) (s : State) : Except Refusal State :=
  match decode word with
  | .error _ => .error .notACommandWord
  | .ok i => issue (encodeWord i) s

/-- A command run whole (R48, R93): the bytes are decoded and the command's meaning is its arm of `exec`. -/
def runBytes (word : List Byte) (s : State) : Host.Outcome State Fault Refusal :=
  match decode word with
  | .error _ => .refused .notACommandWord
  | .ok i => exec i s

/-- `IBUF[j] <- OBUF[j]` (R79): the host reads the one and writes the other. -/
def copyByte (j : Nat) (s : State) : Except Refusal State :=
  if s.params.maxOutLen ≤ j then .error .indexOutOfRange
  else writeIbuf j (readObuf j s).1 (readObuf j s).2

/-- WAIT (R78): the host reads `STATUS`, and again at its next turn while the phase is BUSY. -/
def waitStep (s : State) : Except Refusal State :=
  match observe .status s with
  | .error r => .error r
  | .ok s1 => .ok (if s.phase = .busy then { s1 with script := .wait :: s1.script } else s1)

/-- READ (R78), as the reads it stands for. -/
def readActions (n : Nat) : List HostAction :=
  [.read .status, .read .outLen, .read .errByte] ++ (List.range n).map (fun j => .read (.obuf j))

/-- RECODE (R79), as the actions it stands for, `n` being `OUT_LEN`. -/
def recodeActions (word : List Byte) (n : Nat) : List HostAction :=
  (List.range n).map .copyByte ++ [.writeInLen n, .writeCmd word, .wait, .readResult]

/-- READ: its reads come next in the host's program. -/
def readResult (s : State) : State := { s with script := readActions s.outLen ++ s.script }

/-- RECODE: legal only in phase DONE (R79). -/
def recode (word : List Byte) (s : State) : Except Refusal State :=
  match decode word with
  | .error _ => .error .notACommandWord
  | .ok _ =>
    if s.phase = .done then .ok { s with script := recodeActions word s.outLen ++ s.script }
    else .error .recodeOutsideDone

/-- R141: one action of the host. -/
def hostAct (a : HostAction) (s : State) : Host.Outcome State Fault Refusal :=
  match a with
  | .writeIbuf i v => ofHost (writeIbuf i v s)
  | .writeInLen n => ofHost (writeInLen n s)
  | .writeCmd word => ofHost (issueBytes word s)
  | .command word => runBytes word s
  | .writeStatus _ => .refused .readOnly
  | .writeOutLen _ => .refused .readOnly
  | .writeErrByte _ => .refused .readOnly
  | .writeObuf _ _ => .refused .readOnly
  | .read port => ofHost (observe port s)
  | .assertReset => .next (assertReset s)
  | .wait => ofHost (waitStep s)
  | .readResult => .next (readResult s)
  | .copyByte j => ofHost (copyByte j s)
  | .recode word => ofHost (recode word s)

/-- LOAD (R78): the bytes go to `IBUF[0..len-1]`, from index `start` on. -/
def loadFrom (start : Nat) : List Byte → List HostAction
  | [] => []
  | b :: rest => .writeIbuf start b :: loadFrom (start + 1) rest

/-- LOAD (R78). -/
def load (d : List Byte) : List HostAction := loadFrom 0 d

/-- `RUN <mnemonic> d` (R79): LOAD d; SETLEN len(d); the command; WAIT; READ. -/
def runActions (i : Instr) (d : List Byte) : List HostAction :=
  load d ++ [.writeInLen d.length, .writeCmd (encode i), .wait, .readResult]

end Sys2Proof.Machine
end

