-- ==== Sys2Proof/Machine/Turn.lean ====
section
/-! DEFINITION. Whose turn it is (41_engine.md R87, R95; 20_memory.md R51), and what each agent does with a turn. -/

namespace Sys2Proof.Machine

/-- Who moves next: the agent `turns` names; where it names none, the engine if it has a step and else the host
(notes/assumptions/5.md). So a command ends once `turns` has run out: the weak fairness of R95. -/
def State.mover (s : State) : Agent :=
  match s.turns with
  | a :: _ => a
  | [] => if s.phase = .busy then .engine else .host

/-- The turn is used up. -/
def State.popTurn (s : State) : State := { s with turns := s.turns.tail }

/-- The engine's turn: one step (R89). It has none in another phase than BUSY, and the turn then passes. -/
def engineTurn (s : State) : Host.Outcome State Fault Refusal :=
  match engineStep s with
  | .ok t => .next t
  | .error f => .fault f

/-- The host's turn: the next action of its program. A host without one does nothing (R141: liberties, not duties). -/
def hostTurn (s : State) : Host.Outcome State Fault Refusal :=
  match s.script with
  | [] => .next s
  | a :: rest => hostAct a { s with script := rest }

/-- One turn. -/
def takeTurn (s : State) : Host.Outcome State Fault Refusal :=
  match s.mover with
  | .engine => engineTurn s.popTurn
  | .host => hostTurn s.popTurn

/-- The host's next move is to issue, at once, the command whose word is the low `nbits` bits of `w`. -/
def State.placeCommand (s : State) (nbits w : Nat) : State :=
  { s with script := .command (wordBytes nbits w) :: s.script, turns := .host :: s.turns }

end Sys2Proof.Machine
end

