-- ==== Sys2Proof/Machine/Codec.lean ====
section
/-! DEFINITION. The architectural functions of the CORE (00_scope.md R3): `ENC` (42_encoder.md R96) and `DEC`
(43_decoder.md R105). The engine does not call them; that its steps compute them is 41_engine.md R93. -/

namespace Sys2Proof.Machine

/-- The CORE's one error kind (60_exceptions.md R121): the reason, and the byte `ERR_BYTE` reports. -/
structure InvalidInput where
  reason : Reason
  byte   : Byte
deriving DecidableEq, Repr

/-- R96, the text of a byte sequence: full groups in input order, then the tail. -/
def encText (var : Variant) : List Byte → List Byte
  | [] => []
  | [b0] => (tailSextets₁ b0).map (fwd var) ++ padding var 2
  | [b0, b1] => (tailSextets₂ b0 b1).map (fwd var) ++ padding var 1
  | b0 :: b1 :: b2 :: rest => (groupSextets (b0 ++ b1 ++ b2)).map (fwd var) ++ encText var rest

/-- R96: `ENC(var, s)`. -/
def enc (var : Variant) (s : List Byte) : Except InvalidInput (List Byte) :=
  if s.length = 0 then .error ⟨.emptyInput, 0x00⟩ else .ok (encText var s)

/-- R105, after the loop: `k` values are left in `acc`, and `t` is what was emitted. A count other than 0, 2, 3 is an
error (R116). -/
def decEnd (t : List Byte) (acc : Group) (k : Nat) : Except InvalidInput (List Byte) :=
  match k with
  | 0 => .ok t
  | 2 => .ok (t ++ tailBytes₂ acc)
  | 3 => .ok (t ++ tailBytes₃ acc)
  | _ => .error ⟨.invalidShift, 0x00⟩

/-- R105, the loop over the characters, left to right, with `t`, `acc` and `k` as there. -/
def decLoop (var : Variant) : List Byte → List Byte → Group → Nat → Except InvalidInput (List Byte)
  | [], t, acc, k => decEnd t acc k
  | c :: rest, t, acc, k =>
    match classify var c with
    | .pad => decEnd t acc k
    | .disallowed => .error ⟨.disallowedChar, c⟩
    | .invalid => .error ⟨.unrecognizedChar, c⟩
    | .value v =>
      if (k + 1) % 4 = 0 then decLoop var rest (t ++ groupBytes (shiftIn acc v)) 0 0
      else decLoop var rest t (shiftIn acc v) ((k + 1) % 4)

/-- R105: `DEC(var, s)`. -/
def dec (var : Variant) (s : List Byte) : Except InvalidInput (List Byte) :=
  if s.length = 0 then .error ⟨.emptyInput, 0x00⟩
  else if var = .standard ∧ s.length % 4 ≠ 0 then .error ⟨.badLength, 0x00⟩
  else decLoop var s [] 0 0

/-- R93: the function `F` of a command. -/
def codec : Instr → List Byte → Except InvalidInput (List Byte)
  | .encodeStd, s => enc .standard s
  | .decodeStd, s => dec .standard s
  | .encodeUrl, s => enc .urlSafe s
  | .decodeUrl, s => dec .urlSafe s

end Sys2Proof.Machine
end

