-- ==== Sys2Proof/Machine/Platform.lean ====
section
/-! DEFINITION. A platform of `N_INST` CORE instances (00_scope.md R12, 60_exceptions.md R133): each has its own
registers, buffers, engine and host, and they share only the constant tables (20_memory.md R55), which are no state. -/

namespace Sys2Proof.Machine

/-- The instances of a platform. The index in the list is the model's own name for one; the CORE defines none (R133).
Each has a `MAX_IN_LEN` of its own: the spec does not say whether they are all the same (DESIGN CHOICE,
notes/assumptions/15.md). -/
structure Platform where
  cores : List State
deriving DecidableEq, Repr

/-- `N_INST >= 1` (R12), every instance's parameters are well formed (R9), and every instance carries its own number, so
that no two draw the same free values (notes/assumptions/15.md). -/
def Platform.wf (P : Platform) : Bool :=
  decide (1 ≤ P.cores.length) && P.cores.all (fun s => s.params.wf) &&
    P.cores.map State.inst == List.range P.cores.length

/-- Instances in their reset state, numbered from `k` on, one for each entry of the list. -/
def resetFrom (k : Nat) : List Params → List State
  | [] => []
  | p :: rest => { State.resetFor p with inst := k } :: resetFrom (k + 1) rest

/-- After reset every instance is in its reset state, phase IDLE (R133); instance `k` has the parameters `ps[k]`, which
need not be the same for all (DESIGN CHOICE, notes/assumptions/15.md). `N_INST` is the length of `ps`. -/
def Platform.resetFor (ps : List Params) : Platform := { cores := resetFrom 0 ps }

/-- A step of the platform: one instance steps. `none`: there is no instance `k`. A refusal or a fault of one instance is
that of the platform, and ends the run of all: R140 does not say whose run a refused action marks where there are several
instances (DESIGN CHOICE, safe, notes/assumptions/15.md). -/
def Platform.stepAt (k : Nat) (P : Platform) : Option (Host.Outcome Platform Fault Refusal) :=
  match P.cores[k]? with
  | none => none
  | some s =>
    match step s with
    | .next t => some (.next { cores := P.cores.set k t })
    | .fault f => some (.fault f)
    | .refused r => some (.refused r)

end Sys2Proof.Machine
end

