-- ==== Sys2Proof/Safety.lean ====
section
/-! DEFINITION. The terms claims are stated in: the result a host sees, the end of a command, and the invariant of the
machine's states. -/

namespace Sys2Proof

/-- A host action that only looks (70_reset_and_hazards.md R141, 30_encoding.md R78): a read in range, WAIT or READ. A host
whose pending actions are all of this kind leaves the command alone and polls (41_engine.md R95). -/
def HostAction.polls (p : Params) : HostAction → Bool
  | .writeIbuf _ _ => false
  | .writeInLen _ => false
  | .writeCmd _ => false
  | .command _ => false
  | .writeStatus _ => false
  | .writeOutLen _ => false
  | .writeErrByte _ => false
  | .writeObuf _ _ => false
  | .read port => port.wf p
  | .assertReset => false
  | .wait => true
  | .readResult => true
  | .copyByte _ => false
  | .recode _ => false

/-- An action that ends a result (R147): it writes `CMD` or asserts reset. -/
def HostAction.endsResult : HostAction → Bool
  | .writeIbuf _ _ => false
  | .writeInLen _ => false
  | .writeCmd _ => true
  | .command _ => true
  | .writeStatus _ => false
  | .writeOutLen _ => false
  | .writeErrByte _ => false
  | .writeObuf _ _ => false
  | .read _ => false
  | .assertReset => true
  | .wait => false
  | .readResult => false
  | .copyByte _ => false
  | .recode _ => false

end Sys2Proof

namespace Sys2Proof.Machine

/-- The end of a command (70_reset_and_hazards.md R150): the phase is DONE or ERROR. -/
def State.ended (s : State) : Prop := s.phase = .done ∨ s.phase = .error

/-- The result bytes in phase DONE, `OBUF[0..OUT_LEN-1]` (10_state.md R38), through the host's read. -/
def State.result (s : State) : List Byte := (List.range s.outLen).map (fun j => (readObuf j s).1)

/-- What the engine never writes (10_state.md R22, R23, R37): `CMD`, `IN_LEN`, `IBUF`, the parameters, and the host's
own side. -/
structure EngineFrame (s t : State) : Prop where
  params : t.params = s.params
  cmd    : t.cmd = s.cmd
  inLen  : t.inLen = s.inLen
  ibuf   : t.ibuf = s.ibuf
  script : t.script = s.script
  turns  : t.turns = s.turns
  seen   : t.seen = s.seen
  draws  : t.draws = s.draws
  epoch  : t.epoch = s.epoch
  inst   : t.inst = s.inst

/-- 41_engine.md R93: the state `t` shows the end of a command whose function value is `r`. -/
def Shows (t : State) (r : Except InvalidInput (List Byte)) : Prop :=
  match r with
  | .ok out =>
    t.phase = .done ∧ t.reason = .none ∧ t.errByte = 0x00 ∧ t.outLen = out.length ∧ t.result = out
  | .error e => t.phase = .error ∧ t.reason = e.reason ∧ t.errByte = e.byte ∧ t.outLen = 0

/-- `k` steps, as far as the machine goes on. -/
def steps : Nat → State → Host.Outcome State Fault Refusal
  | 0, s => .next s
  | k + 1, s =>
    match step s with
    | .next t => steps k t
    | .fault f => .fault f
    | .refused r => .refused r

/-- The characters a decode scans: those before the first `'='` (60_exceptions.md R122, 43_decoder.md R107). -/
def scanned (s : List Byte) : List Byte := s.takeWhile (fun c => c != padChar)

/-- A character that raises an error when it is scanned (R122). -/
def isBad (var : Variant) (c : Byte) : Bool :=
  match classify var c with
  | .pad => false
  | .disallowed => true
  | .invalid => true
  | .value _ => false

/-- A character that is accepted (R106). -/
def isValue (var : Variant) (c : Byte) : Bool :=
  match classify var c with
  | .pad => false
  | .disallowed => false
  | .invalid => false
  | .value _ => true

/-- The error of a bad character (R122): its reason, and the byte itself. -/
def charError (var : Variant) (c : Byte) : InvalidInput :=
  if classify var c = .disallowed then ⟨.disallowedChar, c⟩ else ⟨.unrecognizedChar, c⟩

/-- 60_exceptions.md R123: the first cause, in the order of that rule, that applies to a command on the input `s`. -/
def firstCause (i : Instr) (s : List Byte) : Option InvalidInput :=
  if s.length = 0 then some ⟨.emptyInput, 0x00⟩
  else if i.isDecode = false then none
  else if i.variant = .standard ∧ s.length % 4 ≠ 0 then some ⟨.badLength, 0x00⟩
  else
    match (scanned s).find? (isBad i.variant) with
    | some c => some (charError i.variant c)
    | none => if (scanned s).length % 4 = 1 then some ⟨.invalidShift, 0x00⟩ else none

/-- The reads READ makes of a state at the end of a command (30_encoding.md R78), newest first. -/
def resultReads (t : State) : List Seen :=
  ((List.range t.outLen).map (fun j => Seen.mk (.obuf j) (readObuf j t).1.toNat)).reverse ++
    [⟨.errByte, t.errByte.toNat⟩, ⟨.outLen, t.outLen⟩, ⟨.status, (statusWord t).toNat⟩]

/-- The host only looks at the CORE. -/
def State.hostPolls (s : State) : Prop := ∀ a ∈ s.script, a.polls s.params = true

/-- The engine registers while a command is BUSY, by stage (the invariants of 42_encoder.md R103 and 43_decoder.md
R112, and 10_state.md R33, R34). `m` counts the values a decode has accepted, which is `POS` or, once the scan has ended
at `'='`, `POS - 1`. -/
def EngineInv (s : State) : Prop :=
  match s.estage, s.isDecode with
  | .check, _ => s.pos = 0 ∧ s.wptr = 0 ∧ s.ecnt = 0 ∧ s.dshift = 0
  | .scan, false => s.ecnt.toNat = s.pos % 3 ∧ s.wptr = 4 * (s.pos / 3)
  | .scan, true => s.dshift.toNat = s.pos % 4 ∧ s.wptr = 3 * (s.pos / 4)
  | .tail, false => s.pos = s.inLen ∧ s.ecnt.toNat = s.pos % 3 ∧ s.wptr = 4 * (s.pos / 3)
  | .tail, true => ∃ m, m ≤ s.pos ∧ s.pos ≤ m + 1 ∧ s.dshift.toNat = m % 4 ∧ s.wptr = 3 * (m / 4)

/-- What holds of the result registers in each phase (10_state.md R24 to R28). -/
def StatusInv (s : State) : Prop :=
  match s.phase with
  | .idle => s.reason = .none ∧ s.outLen = 0 ∧ s.errByte = 0x00
  | .busy => s.reason = .none ∧ s.outLen = 0 ∧ s.errByte = 0x00
  | .done => s.reason = .none ∧ s.outLen = s.wptr ∧ s.errByte = 0x00
  | .error => s.reason ≠ .none ∧ s.outLen = 0 ∧
      (s.reason ≠ .disallowedChar → s.reason ≠ .unrecognizedChar → s.errByte = 0x00)

/-- The invariant of the machine: what holds of every state a run reaches. -/
structure State.Inv (s : State) : Prop where
  /-- `MAX_IN_LEN >= 1` (00_scope.md R9) -/
  params : s.params.wf = true
  /-- the buffers are in canonical form, inside their index ranges (20_memory.md R42) -/
  ibufWf : Memory.wf s.ibuf
  ibufWithin : Memory.within s.ibuf s.params.maxInLen
  obufWf : Memory.wf s.obuf
  obufWithin : Memory.within s.obuf s.params.maxOutLen
  /-- the registers of `LEN_W` bits (R11, 10_state.md R31, R32) -/
  inLenWidth : s.inLen < 2 ^ s.params.lenW
  posRange : s.pos ≤ s.params.maxInLen
  wptrRange : s.wptr ≤ s.params.maxOutLen
  /-- every output byte below `WPTR` has been written -/
  written : ∀ j < s.wptr, (Memory.read s.obuf j).isSome
  /-- R33: `ECNT = 3` never occurs, and the bits of `EBUF` above `8*ECNT` are 0 -/
  ecntRange : s.ecnt.toNat ≤ 2
  ebufRange : s.ebuf.toNat < 2 ^ (8 * s.ecnt.toNat)
  /-- R34: the bits of `DACC` above `6*DSHIFT` are 0 -/
  daccRange : s.dacc.toNat < 2 ^ (6 * s.dshift.toNat)
  status : StatusInv s
  /-- while BUSY: the input fits (R88), `POS <= IN_LEN` (R31), and the engine's own invariant -/
  busy : s.phase = .busy → s.inLen ≤ s.params.maxInLen ∧ s.pos ≤ s.inLen ∧ EngineInv s

end Sys2Proof.Machine
end

