-- ==== Sys2Proof/Certificates/Slice0/Obligations.lean ====
section
/-! DEFINITION. The statements about the CORE, from the numbered rules of spec/. Where a clause is the model's choice and
not the spec's, the docstring says so and names the log entry. -/

open Sys2Proof Sys2Proof.Machine

/-! ## The command word -/

/-- The codes of 30_encoding.md R58: the byte of a `CMD` write decodes to the row its two low bits select. -/
def Obligations.CommandWordsDecodeToTheTableRows : Prop :=
  decode [0b00000000#8] = .ok .encodeStd ∧ decode [0b00000001#8] = .ok .decodeStd ∧
  decode [0b00000010#8] = .ok .encodeUrl ∧ decode [0b00000011#8] = .ok .decodeUrl

/-- R56, R57, R59: bit 0 is `OP`, bit 1 is `VAR`, and every 2-bit word is the word of exactly one command. -/
def Obligations.EveryCommandWordIsOneCommand : Prop :=
  (∀ (w : CmdWord) (i : Instr), decodeWord w = i ↔ encodeWord i = w) ∧
  (∀ i : Instr, (encodeWord i).getLsbD 0 = i.isDecode ∧ wordVariant (encodeWord i) = i.variant)

/-- Decoding inverts encoding, both ways. That a write wider than the word is taken only when the bits above it are 0 is
the model's choice (notes/assumptions/8.md; the spec leaves it to `HOST_BUS`, R59). -/
def Obligations.DecodingInvertsEncoding : Prop :=
  ∀ (bytes : List Byte) (i : Instr), decode bytes = .ok i ↔ ∃ n, bytes = encode i ++ List.replicate n 0#8

/-! ## The step -/

/-- A step runs the decoded command: where the host moves and its next action runs a command word, the step is the
command's meaning at the state with that action and that turn taken away. The second clause says so of a word of the
opcode table that is placed for the next step. That a command may run as one step is R93; the fields `script` and `turns`
are the model's (notes/assumptions/5.md, 7.md, 13.md). -/
def Obligations.StepRunsTheDecodedCommand : Prop :=
  (∀ (s : State) (word : List Byte) (rest : List HostAction) (i : Instr),
    s.mover = .host → s.script = .command word :: rest → decode word = .ok i → i.wf = true →
      step s = exec i { s with script := rest, turns := s.turns.tail }) ∧
  (∀ (s : State) (nbits w : Nat) (i : Instr),
    decodeTableWord nbits w = some i → step (s.withFetchWord nbits w) = exec i s)

/-- R88: a write of `CMD` issues the command. It sets `CMD`, `STATUS`, `OUT_LEN`, `ERR_BYTE` and every engine register
as the rule lists, in every phase but BUSY, and changes nothing else; while BUSY, or with `IN_LEN > MAX_IN_LEN`, it is
refused (R142, R145). -/
def Obligations.WritingCmdIssuesTheCommand : Prop :=
  ∀ (s : State) (i : Instr) (rest : List HostAction),
    s.mover = .host → s.script = .writeCmd (encode i) :: rest →
      (s.phase ≠ .busy → s.inLen ≤ s.params.maxInLen →
        step s = .next { s with
          script := rest, turns := s.turns.tail,
          cmd := encodeWord i, phase := .busy, reason := .none, outLen := 0, errByte := 0x00,
          estage := .check, pos := 0, wptr := 0, ebuf := 0, ecnt := 0, dacc := 0, dshift := 0 }) ∧
      (s.phase = .busy → ∃ r, step s = .refused r) ∧
      (s.params.maxInLen < s.inLen → ∃ r, step s = .refused r)

/-- R87: the engine has a step exactly when `STATUS.PHASE = BUSY`. In another phase it has none, and while BUSY a step never
leaves the state as it is; from every BUSY state of the invariant there is one, which answers another state. That an engine
without a step leaves the state as it is, which is how the first clause says it has none, is the model's choice
(notes/assumptions/6.md). -/
def Obligations.EngineHasAStepExactlyWhenBusy : Prop :=
  (∀ s : State, engineStep s = .ok s ↔ s.phase ≠ .busy) ∧
  (∀ s : State, s.Inv → s.phase = .busy → ∃ t, engineStep s = .ok t ∧ t ≠ s)

/-- Where a command runs and where it stops (R142, R145): it answers a next state exactly when no command is BUSY and the
input fits, and it is refused otherwise. -/
def Obligations.CommandsRunExactlyWhenAllowed : Prop :=
  ∀ (i : Instr) (s : State),
    ((∃ t, exec i s = .next t) ↔ s.phase ≠ .busy ∧ s.inLen ≤ s.params.maxInLen) ∧
    (s.phase = .busy → exec i s = .refused .issueWhileBusy) ∧
    (s.phase ≠ .busy → s.params.maxInLen < s.inLen → exec i s = .refused .oversizedInput)

/-! ## What a command computes -/

/-- R98, R100, R101: ENCODE.STD and ENCODE.URL answer a next state that shows the value of `ENC` (R96) on the input. It
is an error, EMPTY_INPUT, exactly when `IN_LEN = 0`, before any input is read and any output written; `ERR_BYTE` is
always 0x00; `CMD` is the command's word; and the input is not written. -/
def Obligations.EncodeCommandsComputeEnc : Prop :=
  ∀ (i : Instr) (s : State), i.isDecode = false → s.phase ≠ .busy → s.inLen ≤ s.params.maxInLen →
    ∃ t, exec i s = .next t ∧ Shows t (enc i.variant s.input) ∧
      (t.phase = .error ↔ s.inLen = 0) ∧ (t.phase = .error → t.reason = .emptyInput ∧ t.pos = 0 ∧ t.obuf = s.obuf) ∧
      t.errByte = 0x00 ∧ t.cmd = encodeWord i ∧ t.ibuf = s.ibuf ∧ t.inLen = s.inLen

/-- R109, R110 for the value and R123 (marked [derived] in the spec) for the order of the causes: DECODE.STD and
DECODE.URL answer a next state that shows the value of `DEC` (R105) on the input. It is an error exactly when one of the
causes of R123 applies, and then it is the first of them (`firstCause`); `CMD` is the command's word; and the input is
not written. -/
def Obligations.DecodeCommandsComputeDec : Prop :=
  ∀ (i : Instr) (s : State), i.isDecode = true → s.phase ≠ .busy → s.inLen ≤ s.params.maxInLen →
    (∃ t, exec i s = .next t ∧ Shows t (dec i.variant s.input) ∧
      t.cmd = encodeWord i ∧ t.ibuf = s.ibuf ∧ t.inLen = s.inLen) ∧
    (∀ e, dec i.variant s.input = .error e ↔ firstCause i s.input = some e)

/-- R93 (an inference of the spec, marked [derived] there): a command issued by a bare write of `CMD`, its engine steps
taken one by one, reaches DONE or ERROR in finitely many steps and shows the value of its function. The premise `turns =
[]` takes one order of turns, the engine first (notes/assumptions/5.md); CommandShowsItsValueWhoeverMoves is about every
order. -/
def Obligations.StepwiseRunComputesTheFunction : Prop :=
  ∀ (i : Instr) (s : State) (rest : List HostAction),
    s.phase ≠ .busy → s.inLen ≤ s.params.maxInLen → s.turns = [] → s.script = .writeCmd (encode i) :: rest →
      ∃ k t, k ≤ s.inLen + 4 ∧ steps k s = .next t ∧ t.script = rest ∧ t.ended ∧ Shows t (codec i s.input)

/-- R48, R93 (inferences of the spec, marked [derived] there: "A model may therefore implement a command as one atomic
step from issue to this final state"; notes/assumptions/7.md): a command run as one step leaves the very state its issue
and its engine steps leave one by one. The premise `turns = []` takes one order of turns, the engine first
(notes/assumptions/5.md): under another order the host's own fields differ. -/
def Obligations.OneStepCommandEqualsItsEngineSteps : Prop :=
  ∀ (i : Instr) (s : State) (rest : List HostAction),
    s.phase ≠ .busy → s.inLen ≤ s.params.maxInLen → s.turns = [] → s.script = .writeCmd (encode i) :: rest →
      ∃ k, k ≤ s.inLen + 4 ∧ steps k s = exec i { s with script := rest }

/-- R123 (marked [derived] in the spec), with the causes of R122: of the causes that apply to a command, exactly the
first is reported; where none applies the command succeeds. All four commands. -/
def Obligations.CommandsReportTheFirstCause : Prop :=
  ∀ (i : Instr) (s : State), s.phase ≠ .busy → s.inLen ≤ s.params.maxInLen →
    ∃ t, exec i s = .next t ∧
      match firstCause i s.input with
      | some e => t.phase = .error ∧ t.reason = e.reason ∧ t.errByte = e.byte ∧ t.outLen = 0
      | none => t.phase = .done ∧ t.reason = .none ∧ t.errByte = 0x00

/-- R97 (marked [derived] in the spec): the output length of an encode of `n >= 1` bytes, and that it fits `OBUF`. -/
def Obligations.EncodeOutputLength : Prop :=
  ∀ (i : Instr) (s : State), i.isDecode = false → s.phase ≠ .busy → 1 ≤ s.inLen → s.inLen ≤ s.params.maxInLen →
    ∃ t, exec i s = .next t ∧ t.phase = .done ∧ t.outLen ≤ s.params.maxOutLen ∧
      (i.variant = .standard → t.outLen = 4 * ((s.inLen + 2) / 3) ∧ t.outLen % 4 = 0) ∧
      (i.variant = .urlSafe →
        t.outLen = 4 * (s.inLen / 3) + [0, 2, 3].getD (s.inLen % 3) 0 ∧ t.outLen = (4 * s.inLen + 2) / 3 ∧
        t.outLen = 4 * ((s.inLen + 2) / 3) - (3 - s.inLen % 3) % 3)

/-- R106 (marked [derived] in the spec): with `m` accepted characters, a decode that succeeds has `m mod 4 != 1` and
gives `floor(3m/4)` bytes, at most `m`, at most `n`; at most `floor(3m/4)` bytes are emitted before an error too; and
all of it fits `OBUF`. -/
def Obligations.DecodeOutputLength : Prop :=
  ∀ (i : Instr) (s t : State), i.isDecode = true → exec i s = .next t →
    let m := (s.input.takeWhile (isValue i.variant)).length
    (t.phase = .done → m % 4 ≠ 1 ∧ t.outLen = 3 * (m / 4) + [0, 0, 1, 2].getD (m % 4) 0 ∧ t.outLen = 3 * m / 4) ∧
    t.wptr ≤ 3 * m / 4 ∧ 3 * m / 4 ≤ m ∧ m ≤ s.inLen ∧ t.wptr ≤ s.params.maxOutLen

/-- R41 (marked [derived] in the spec): the result of a command depends only on the command, `IN_LEN` and
`IBUF[0..IN_LEN-1]`: two states that agree on these, and on nothing else, end with the same `STATUS`, `OUT_LEN`,
`ERR_BYTE` and result bytes. -/
def Obligations.ResultDependsOnlyOnTheInput : Prop :=
  ∀ (i : Instr) (s₁ s₂ t₁ t₂ : State),
    s₁.inLen = s₂.inLen → (∀ k < s₁.inLen, s₁.ibufByte k = s₂.ibufByte k) →
    exec i s₁ = .next t₁ → exec i s₂ = .next t₂ →
      statusWord t₁ = statusWord t₂ ∧ t₁.outLen = t₂.outLen ∧ t₁.errByte = t₂.errByte ∧ t₁.result = t₂.result

/-- The frame of the four commands (R61, R88, R90, R91, R37): `CMD` is the command's word; `IN_LEN`, every byte of
`IBUF`, the parameters and the host's side are unchanged; and EMIT, which writes `OBUF[WPTR]` from index 0 up, leaves
every byte of `OBUF` from the final `WPTR` on as it was. (The status and result registers and the engine's registers may
change.) -/
def Obligations.CommandFrame : Prop :=
  ∀ (i : Instr) (s t : State), exec i s = .next t →
    EngineFrame { s with cmd := encodeWord i } t ∧ (∀ k, t.ibufByte k = s.ibufByte k) ∧
    (∀ j, t.wptr ≤ j → Memory.read t.obuf j = Memory.read s.obuf j)

/-! ## The engine's steps

These are about the spec's reference datapath: 93_implementation_defined.md P6 leaves the step structure free
(notes/assumptions/22.md). -/

/-- R89, R90, R91 for every engine step: `CMD`, `IN_LEN`, `IBUF`, the parameters and the host's side are unchanged; at
most one byte is read and at most four are written, at `OBUF[WPTR]` and up; every other byte of `OBUF` stays. -/
def Obligations.EngineStepFrame : Prop :=
  ∀ s t : State, engineStep s = .ok t →
    EngineFrame s t ∧ s.pos ≤ t.pos ∧ t.pos ≤ s.pos + 1 ∧ s.wptr ≤ t.wptr ∧ t.wptr ≤ s.wptr + 4 ∧
    (∀ j, j < s.wptr ∨ t.wptr ≤ j → Memory.read t.obuf j = Memory.read s.obuf j)

/-- R122 and R124: when an engine step ends a command in error, for each reason exactly the condition and the stage of
R122's table hold, and `ERR_BYTE` is what the table says; `OUT_LEN` is 0, nothing more is emitted, the engine has no
further step, and `OBUF` reads any value. The form of the last two clauses is the model's choice: an agent without a
step leaves the state as it is (notes/assumptions/6.md), and an unspecified read is a free value
(notes/assumptions/4.md). The stages are those of the reference datapath (notes/assumptions/22.md). -/
def Obligations.AnErrorHasItsCause : Prop :=
  ∀ s t : State, s.phase = .busy → engineStep s = .ok t →
    let c := s.ibufByte s.pos
    let raised (r : Reason) : Prop := t.phase = .error ∧ t.reason = r
    (raised .emptyInput ↔ s.estage = .check ∧ s.inLen = 0) ∧
    (raised .badLength ↔ s.estage = .check ∧ s.inLen ≠ 0 ∧ s.isDecode = true ∧ s.variant = .standard ∧ s.inLen % 4 ≠ 0) ∧
    (raised .disallowedChar ↔ s.estage = .scan ∧ s.pos < s.inLen ∧ s.isDecode = true ∧
      ((s.variant = .standard ∧ (c = 0x2D ∨ c = 0x5F)) ∨ (s.variant = .urlSafe ∧ (c = 0x2B ∨ c = 0x2F)))) ∧
    (raised .unrecognizedChar ↔
      s.estage = .scan ∧ s.pos < s.inLen ∧ s.isDecode = true ∧ c ≠ 0x3D ∧ revIsValid c = false) ∧
    (raised .invalidShift ↔ s.estage = .tail ∧ s.isDecode = true ∧ s.dshift = 1) ∧
    (t.phase = .error → t.reason ≠ .none ∧
      t.errByte = (if t.reason = .disallowedChar ∨ t.reason = .unrecognizedChar then c else 0x00) ∧
      t.outLen = 0 ∧ t.obuf = s.obuf ∧ engineStep t = .ok t ∧ ∀ j, (readObuf j t).1 = Config.anyObufByte t.inst t.draws)

/-- R94 (marked [derived] in the spec): every command ends within `IN_LEN + 3` engine steps after its issue. -/
def Obligations.CommandsEndWithinTheStepBound : Prop :=
  ∀ (w : CmdWord) (s s₁ : State), issue w s = .ok s₁ →
    ∃ t, runEngine (s.inLen + 3) s₁ = .ok t ∧ t.ended

/-- 95_test_vectors.md section 5: an encode of `n >= 1` bytes takes exactly `n + 3` engine steps: it is BUSY until
then. -/
def Obligations.EncodeTakesExactlyTheStepBound : Prop :=
  ∀ (i : Instr) (s s₁ : State), i.isDecode = false → issue (encodeWord i) s = .ok s₁ → 1 ≤ s.inLen →
    (∀ k < s.inLen + 3, ∃ t, runEngine k s₁ = .ok t ∧ t.phase = .busy) ∧
    ∃ t, runEngine (s.inLen + 3) s₁ = .ok t ∧ t.phase = .done

/-- R95: whoever moves when, a BUSY command ends while the host leaves it alone: while the host's pending actions only
look at the CORE (reads in range, WAIT and READ; none is the case of no action). `turns` is any finite choice of movers
(notes/assumptions/5.md). -/
def Obligations.BusyCommandEndsWhoeverMoves : Prop :=
  ∀ s : State, s.Inv → s.phase = .busy → s.hostPolls →
    ∃ t, steps (s.turns.length + s.inLen + 3) s = .next t ∧ t.ended

/-- R93 (marked [derived] in the spec) and R95: whoever moves when (`turns`, notes/assumptions/5.md), an issued command
ends while the host only looks, and then the state shows the value of its function. -/
def Obligations.CommandShowsItsValueWhoeverMoves : Prop :=
  ∀ (i : Instr) (s s₁ : State), issue (encodeWord i) s = .ok s₁ → s.hostPolls →
    ∃ t, steps (s.turns.length + s.inLen + 3) s₁ = .next t ∧ t.ended ∧ Shows t (codec i s.input)

/-- R78: WAIT reads `STATUS`, and again at the host's next turn while the phase is BUSY; otherwise it is done. The
record of reads and the place where the action waits are the model's own fields (notes/assumptions/13.md, 19.md). -/
def Obligations.WaitRepeatsWhileBusy : Prop :=
  ∀ s : State,
    (s.phase = .busy → hostAct .wait s = .next { s with
      script := .wait :: s.script, seen := ⟨.status, (statusWord s).toNat⟩ :: s.seen }) ∧
    (s.phase ≠ .busy → hostAct .wait s = .next { s with seen := ⟨.status, (statusWord s).toNat⟩ :: s.seen })

/-- R95: "a host that polls `STATUS` (the `WAIT` action of 30_encoding.md rule R78) eventually sees `DONE` or `ERROR`".
Whoever moves when (`turns`, notes/assumptions/5.md), WAIT on a BUSY command comes to an end, and what it has read is
BUSY some number of times and then the `STATUS` of the ended command. -/
def Obligations.WaitSeesTheEndOfTheCommand : Prop :=
  ∀ (s : State) (rest : List HostAction), s.Inv → s.phase = .busy → s.script = .wait :: rest →
    ∃ k m t, k ≤ s.turns.length + s.inLen + 4 ∧ steps k s = .next t ∧ t.script = rest ∧ t.ended ∧
      t.seen = ⟨.status, (statusWord t).toNat⟩ :: (List.replicate m ⟨.status, 0x01⟩ ++ s.seen)

/-- R103 (an invariant marked [derived] in the spec): while an encode runs, what is in `OBUF[0..WPTR-1]` is the first
`WPTR` bytes of its result. -/
def Obligations.EncoderOutputIsAPrefixOfTheResult : Prop :=
  ∀ (i : Instr) (s s₁ t : State) (k : Nat), i.isDecode = false → issue (encodeWord i) s = .ok s₁ →
    runEngine k s₁ = .ok t →
      t.wptr ≤ (encText i.variant s.input).length ∧
      ∀ j < t.wptr, Memory.read t.obuf j = (encText i.variant s.input)[j]?

/-- R34 (its placement of the values is marked [derived] in the spec), R113: in every state of the invariant the shift
of the accumulator loses no bit. -/
def Obligations.AccumulatorNeverLosesABit : Prop :=
  ∀ (s : State) (v : Sextet), s.Inv → (shiftIn s.dacc v).toNat = 64 * s.dacc.toNat + v.toNat

/-- R64, R68: the four values of a full encode group, shifted into an empty accumulator in order, flush as the three
bytes of the group. -/
def Obligations.DecodeGroupInvertsEncodeGroup : Prop :=
  ∀ b0 b1 b2 : Byte, groupBytes ((groupSextets (b0 ++ b1 ++ b2)).foldl shiftIn 0#24) = [b0, b1, b2]

/-! ## The functions -/

/-- R118 (its hardware form is marked [derived] in the spec): decoding the text of an encode, in the same variant, gives
the bytes back; and so does the hardware, when a DECODE of the same variant is issued with `IBUF` holding the result of
a successful ENCODE. -/
def Obligations.RoundTrip : Prop :=
  (∀ (var : Variant) (s t : List Byte), enc var s = .ok t → dec var t = .ok s) ∧
  (∀ (i j : Instr) (s t u : State),
    i.isDecode = false → j.isDecode = true → j.variant = i.variant → exec i s = .next t → t.phase = .done →
    u.phase ≠ .busy → u.inLen ≤ u.params.maxInLen → u.input = t.result →
      ∃ v, exec j u = .next v ∧ v.phase = .done ∧ v.result = s.input)

/-- R99 (marked [derived] in the spec): the four output properties of an encode of `n >= 1` bytes. -/
def Obligations.EncodeTextProperties : Prop :=
  ∀ s : List Byte, 1 ≤ s.length →
    (∀ c ∈ encText .urlSafe s, c ∈ alphaUrl ∧ c ≠ padChar) ∧
    (∃ body, encText .standard s = body ++ List.replicate ((3 - s.length % 3) % 3) padChar ∧
      (∀ c ∈ body, c ∈ alphaStd) ∧
      encText .urlSafe s = body.map (fun c => if c = 0x2B then 0x2D else if c = 0x2F then 0x5F else c)) ∧
    (∀ var : Variant, ∃ body v, encText var s = body ++ [fwd var v] ++ padding var ((3 - s.length % 3) % 3) ∧
      (s.length % 3 = 1 → v.extractLsb 3 0 = 0#4) ∧ (s.length % 3 = 2 → v.extractLsb 1 0 = 0#2))

/-- R107 (marked [derived] in the spec): a decode stops at the first `'='`, in any position and under both variants:
what stands after it is not looked at, but its length counts in the Standard length check. With the rule's examples. -/
def Obligations.DecodeStopsAtTheFirstPad : Prop :=
  (∀ (var : Variant) (s u v : List Byte), u.length = v.length →
    dec var (s ++ padChar :: u) = dec var (s ++ padChar :: v)) ∧
  (∀ (var : Variant) (u : List Byte), (var = .standard → (u.length + 1) % 4 = 0) → dec var (padChar :: u) = .ok []) ∧
  (∀ s : List Byte, s.length % 4 ≠ 0 → dec .standard s = .error ⟨.badLength, 0x00⟩) ∧
  dec .urlSafe [0x41, 0x51, 0x3D, 0x3D] = .ok [0x01] ∧
  dec .standard [0x41, 0x41, 0x3D, 0x41] = .ok [0x00] ∧
  dec .standard [0x41, 0x3D, 0x3D, 0x3D] = .error ⟨.invalidShift, 0x00⟩

/-- R69, R108 (marked [derived] in the spec): the low bits that a tail drops are not checked: after any whole groups, two
texts whose last value differs only in them decode alike, whether the scan ends at `'='` or at the end of input; the
rule's example, and one without `'='`. -/
def Obligations.DroppedBitsAreNotChecked : Prop :=
  (∀ (var : Variant) (s rest : List Byte) (v0 v v' : Sextet),
    s.length % 4 = 0 → (rest = [] ∨ ∃ u, rest = padChar :: u) → v.extractLsb 5 4 = v'.extractLsb 5 4 →
      dec var (s ++ [fwd var v0, fwd var v] ++ rest) = dec var (s ++ [fwd var v0, fwd var v'] ++ rest)) ∧
  (∀ (var : Variant) (s rest : List Byte) (v0 v1 v v' : Sextet),
    s.length % 4 = 0 → (rest = [] ∨ ∃ u, rest = padChar :: u) → v.extractLsb 5 2 = v'.extractLsb 5 2 →
      dec var (s ++ [fwd var v0, fwd var v1, fwd var v] ++ rest) =
        dec var (s ++ [fwd var v0, fwd var v1, fwd var v'] ++ rest)) ∧
  dec .standard [0x41, 0x52, 0x3D, 0x3D] = .ok [0x01] ∧ dec .urlSafe [0x41, 0x52] = .ok [0x01]

/-- R119 (marked [derived] in the spec): the length check of DECODE.STD, and when the same text succeeds under UrlSafe.
-/
def Obligations.LengthCheckIsStandardOnly : Prop :=
  ∀ s : List Byte, 0 < s.length →
    (s.length % 4 ≠ 0 → dec .standard s = .error ⟨.badLength, 0x00⟩) ∧
    ((∃ t, dec .urlSafe s = .ok t) ↔
      (∀ c ∈ scanned s, isBad .urlSafe c = false) ∧ (scanned s).length % 4 ≠ 1)

/-- R120 (marked [derived] in the spec): the four texts that the wrong variant rejects, and `"a-bc"`. -/
def Obligations.WrongVariantTextsFail : Prop :=
  dec .urlSafe [0x61, 0x2B, 0x62] = .error ⟨.disallowedChar, 0x2B⟩ ∧
  dec .urlSafe [0x61, 0x2F, 0x62] = .error ⟨.disallowedChar, 0x2F⟩ ∧
  dec .standard [0x61, 0x2D, 0x62] = .error ⟨.badLength, 0x00⟩ ∧
  dec .standard [0x61, 0x5F, 0x62] = .error ⟨.badLength, 0x00⟩ ∧
  dec .standard [0x61, 0x2D, 0x62, 0x63] = .error ⟨.disallowedChar, 0x2D⟩ ∧
  dec .standard [0x61, 0x5F, 0x62, 0x63] = .error ⟨.disallowedChar, 0x5F⟩

/-! ## The tables -/

/-- 30_encoding.md R73, the closed form of both alphabets (the codes are marked [from general knowledge] in the spec, the
closed form [derived]). -/
def Obligations.AlphabetsHaveTheAsciiCodes : Prop :=
  ∀ (var : Variant) (i : Sextet),
    (i.toNat ≤ 25 → (fwd var i).toNat = 0x41 + i.toNat) ∧
    (26 ≤ i.toNat → i.toNat ≤ 51 → (fwd var i).toNat = 0x47 + i.toNat) ∧
    (52 ≤ i.toNat → i.toNat ≤ 61 → (fwd var i).toNat = i.toNat - 4) ∧
    fwd .standard 62 = 0x2B ∧ fwd .standard 63 = 0x2F ∧ fwd .urlSafe 62 = 0x2D ∧ fwd .urlSafe 63 = 0x5F

/-- R74: `REV[c]` is valid with value `i` exactly when `c` is entry `i` of one of the alphabets, and invalid
(the entry 0, R76) otherwise. -/
def Obligations.ReverseTableInvertsBothAlphabets : Prop :=
  (∀ (c : Byte) (i : Sextet), (revIsValid c = true ∧ revValue c = i) ↔ (fwd .standard i = c ∨ fwd .urlSafe i = c)) ∧
  (∀ c : Byte, revIsValid c = false → rev c = 0#7)

/-- R83 (marked [derived] in the spec): `FWD(var, ·)` and the VALUE class of `CLASSIFY(var, ·)` are inverse bijections.
-/
def Obligations.TableLaws : Prop :=
  (∀ (var : Variant) (i : Sextet),
    rev (fwd var i) = 0x40#7 ||| i.setWidth 7 ∧ classify var (fwd var i) = .value i) ∧
  (∀ (var : Variant) (c : Byte) (v : Sextet), classify var c = .value v → fwd var v = c)

/-- R84 (marked [derived] in the spec): the cross-variant law of the tables, and which text of one variant decodes under
the other. -/
def Obligations.CrossVariantLaw : Prop :=
  ∀ var var' : Variant, var ≠ var' →
    (∀ i : Sextet, 62 ≤ i.toNat → classify var' (fwd var i) = .disallowed) ∧
    (∀ i : Sextet, i.toNat ≤ 61 → classify var' (fwd var i) = .value i) ∧
    (∀ s t : List Byte, enc var s = .ok t →
      ((∃ u, dec var' t = .ok u) ↔
        (∀ c ∈ t, c ≠ 0x2B ∧ c ≠ 0x2F ∧ c ≠ 0x2D ∧ c ≠ 0x5F) ∧ (var' = .standard → t.length % 4 = 0)))

/-- R77: the four character classes, by their conditions, under either variant; the value of a character is its `REV`
value and its index in the variant's alphabet (the last is marked [derived] in the spec). -/
def Obligations.CharacterClasses : Prop :=
  ∀ (var : Variant) (c : Byte),
    (classify var c = .pad ↔ c = 0x3D) ∧
    (classify var c = .disallowed ↔
      (var = .urlSafe ∧ (c = 0x2B ∨ c = 0x2F)) ∨ (var = .standard ∧ (c = 0x2D ∨ c = 0x5F))) ∧
    (classify var c = .invalid ↔ c ≠ 0x3D ∧ revIsValid c = false) ∧
    (∀ v, classify var c = .value v ↔ c ≠ 0x3D ∧ classify var c ≠ .disallowed ∧ revIsValid c = true ∧ revValue c = v) ∧
    (∀ v, classify var c = .value v ↔ fwd var v = c)

/-! ## STATUS and the parameters -/

/-- R26, R63, and the numbers of R24 and R62: the fields of the `STATUS` word the host reads. PHASE in [1:0] is IDLE 0,
BUSY 1, DONE 2, ERROR 3; REASON in [4:2] is NONE 0, EMPTY_INPUT 1, BAD_LENGTH 2, DISALLOWED_CHAR 3, UNRECOGNIZED_CHAR 4,
INVALID_SHIFT 5; bits [7:5] are 0, and no reserved REASON code is ever produced. -/
def Obligations.StatusWordLayout : Prop :=
  ∀ s : State,
    let phase := (statusWord s).extractLsb 1 0
    let reason := (statusWord s).extractLsb 4 2
    ((phase = 0#2 ↔ s.phase = .idle) ∧ (phase = 1#2 ↔ s.phase = .busy) ∧
      (phase = 2#2 ↔ s.phase = .done) ∧ (phase = 3#2 ↔ s.phase = .error)) ∧
    ((reason = 0#3 ↔ s.reason = .none) ∧ (reason = 1#3 ↔ s.reason = .emptyInput) ∧
      (reason = 2#3 ↔ s.reason = .badLength) ∧ (reason = 3#3 ↔ s.reason = .disallowedChar) ∧
      (reason = 4#3 ↔ s.reason = .unrecognizedChar) ∧ (reason = 5#3 ↔ s.reason = .invalidShift)) ∧
    (statusWord s).extractLsb 7 5 = 0#3 ∧ reason ≠ 6#3 ∧ reason ≠ 7#3

/-- R10, R11: `LEN_W` is the least width whose values reach past `MAX_OUT_LEN = 4 * ceil(MAX_IN_LEN / 3)`, and
`MAX_IN_LEN` fits it too. -/
def Obligations.LengthWidthIsLeast : Prop :=
  ∀ p : Params, p.wf = true →
    p.maxInLen ≤ p.maxOutLen ∧ p.maxOutLen < 2 ^ p.lenW ∧ ∀ w, p.maxOutLen < 2 ^ w → p.lenW ≤ w

/-! ## Reset, the host's actions and the life of a result -/

/-- R136, R137, R138: reset, in any state, sets every register as listed; the buffers are unspecified; a running command
ends in neither a result nor an error; and the CORE accepts a command at once. The model's choices in it: a new free
value for each byte (`epoch`, notes/assumptions/3.md, 4.md, 18.md), and that a state carries the parameters and the
instance, which stay (notes/assumptions/1.md, 15.md). -/
def Obligations.ResetRestoresEveryRegister : Prop :=
  ∀ s : State, ∃ t, hostAct .assertReset s = .next t ∧
    t.cmd = 0b00#2 ∧ t.inLen = 0 ∧ t.phase = .idle ∧ t.reason = .none ∧ t.outLen = 0 ∧ t.errByte = 0x00 ∧
    t.estage = .check ∧ t.pos = 0 ∧ t.wptr = 0 ∧ t.ebuf = 0 ∧ t.ecnt = 0 ∧ t.dacc = 0 ∧ t.dshift = 0 ∧
    t.params = s.params ∧ t.inst = s.inst ∧ t.epoch ≠ s.epoch ∧
    (∀ i, t.ibufByte i = Config.anyIbufByte t.inst t.epoch i) ∧ (∀ j, (readObuf j t).1 = Config.anyObufByte t.inst t.draws) ∧
    (∀ i : Instr, ∃ u, exec i t = .next u)

/-- R141, the host's writes of `IBUF` and `IN_LEN`: what they do, what they leave, and when they are refused. -/
def Obligations.HostWritesFollowTheTable : Prop :=
  ∀ s : State,
    (∀ (i : Nat) (v : Byte), i < s.params.maxInLen → s.phase ≠ .busy →
      ∃ t, hostAct (.writeIbuf i v) s = .next t ∧ t.ibufByte i = v ∧ (∀ k, k ≠ i → t.ibufByte k = s.ibufByte k) ∧
        t = { s with ibuf := t.ibuf }) ∧
    (∀ (i : Nat) (v : Byte), s.params.maxInLen ≤ i ∨ s.phase = .busy → ∃ r, hostAct (.writeIbuf i v) s = .refused r) ∧
    (∀ n : Nat, n < 2 ^ s.params.lenW → s.phase ≠ .busy → hostAct (.writeInLen n) s = .next { s with inLen := n }) ∧
    (∀ n : Nat, s.phase = .busy → ∃ r, hostAct (.writeInLen n) s = .refused r)

/-- R141, the host's reads: registers and `IBUF` are exact; `OBUF[j]` is the result byte if `PHASE = DONE` and `j <
OUT_LEN` and otherwise any value; an index out of range is refused. The record of reads and the counter of free values
are the model's own fields (notes/assumptions/4.md, 13.md), and a read changes nothing else. -/
def Obligations.HostReadsFollowTheTable : Prop :=
  ∀ s : State,
    hostAct (.read .cmd) s = .next { s with seen := ⟨.cmd, s.cmd.toNat⟩ :: s.seen } ∧
    hostAct (.read .inLen) s = .next { s with seen := ⟨.inLen, s.inLen⟩ :: s.seen } ∧
    hostAct (.read .status) s = .next { s with seen := ⟨.status, (statusWord s).toNat⟩ :: s.seen } ∧
    hostAct (.read .outLen) s = .next { s with seen := ⟨.outLen, s.outLen⟩ :: s.seen } ∧
    hostAct (.read .errByte) s = .next { s with seen := ⟨.errByte, s.errByte.toNat⟩ :: s.seen } ∧
    (∀ i, i < s.params.maxInLen →
      hostAct (.read (.ibuf i)) s = .next { s with seen := ⟨.ibuf i, (s.ibufByte i).toNat⟩ :: s.seen }) ∧
    (∀ j b, j < s.params.maxOutLen → s.phase = .done → j < s.outLen → Memory.read s.obuf j = some b →
      hostAct (.read (.obuf j)) s = .next { s with seen := ⟨.obuf j, b.toNat⟩ :: s.seen }) ∧
    (∀ j, j < s.params.maxOutLen → ¬ (s.phase = .done ∧ j < s.outLen) →
      hostAct (.read (.obuf j)) s = .next { s with
        seen := ⟨.obuf j, (Config.anyObufByte s.inst s.draws).toNat⟩ :: s.seen, draws := s.draws + 1 }) ∧
    (∀ i, s.params.maxInLen ≤ i → hostAct (.read (.ibuf i)) s = .refused .indexOutOfRange) ∧
    (∀ j, s.params.maxOutLen ≤ j → hostAct (.read (.obuf j)) s = .refused .indexOutOfRange)

/-- R140, R141: an action with an index out of range, a write of a read-only register or of `OBUF`, or a value that is
no command word or too wide (the last two are `HOST_BUS`, notes/assumptions/8.md, 9.md) is refused in every state. -/
def Obligations.IllFormedHostActionsAreRefused : Prop :=
  ∀ (s : State) (a : HostAction), a.wf s.params = false → ∃ r, hostAct a s = .refused r

/-- R142, R143: while a command is BUSY, writes of `CMD`, `IBUF` and `IN_LEN` are refused, whatever they write. -/
def Obligations.BusyRefusesIssueAndInputChanges : Prop :=
  ∀ s : State, s.phase = .busy →
    (∀ word, ∃ r, hostAct (.writeCmd word) s = .refused r) ∧ (∀ word, ∃ r, hostAct (.command word) s = .refused r) ∧
    (∀ i v, ∃ r, hostAct (.writeIbuf i v) s = .refused r) ∧ (∀ n, ∃ r, hostAct (.writeInLen n) s = .refused r)

/-- R144: while BUSY, `OBUF` reads any value, and the registers read exactly: `STATUS` is BUSY with `REASON = 0`,
`OUT_LEN` is 0 and `ERR_BYTE` is 0x00. That "any value" is a free value and no partial output
(93_implementation_defined.md U3 allows either) and the record of reads are the model's choices (notes/assumptions/4.md,
13.md). -/
def Obligations.ReadsWhileBusy : Prop :=
  ∀ s : State, s.Inv → s.phase = .busy →
    (∀ j, (readObuf j s).1 = Config.anyObufByte s.inst s.draws) ∧
    hostAct (.read .status) s = .next { s with seen := ⟨.status, 0x01⟩ :: s.seen } ∧
    hostAct (.read .outLen) s = .next { s with seen := ⟨.outLen, 0⟩ :: s.seen } ∧
    hostAct (.read .errByte) s = .next { s with seen := ⟨.errByte, 0x00⟩ :: s.seen }

/-- R147: a result stays readable, unchanged, until the next issue or reset: through every step but the host's turn to
write `CMD` or assert reset, the reads of it among them, and an engine's turn while such an action is pending too; and
an issue ends it: it makes the CORE BUSY, and while a command is BUSY `OBUF` reads any value. That this is a free value
is the model's choice (notes/assumptions/4.md). -/
def Obligations.ResultLastsUntilIssueOrReset : Prop :=
  (∀ s t : State, s.Inv → s.ended → step s = .next t →
    (s.mover = .host → ∀ a rest, s.script = a :: rest → a.endsResult = false) →
      statusWord t = statusWord s ∧ t.outLen = s.outLen ∧ t.errByte = s.errByte ∧ t.result = s.result) ∧
  (∀ (w : CmdWord) (s t : State), issue w s = .ok t → t.phase = .busy) ∧
  (∀ (s : State) (j : Nat), s.phase = .busy → (readObuf j s).1 = Config.anyObufByte s.inst s.draws)

/-- R78, R79: RUN of a command on the bytes `d`, carried out action by action and engine step by engine step, whoever
moves when (`turns`, notes/assumptions/5.md), ends with the function's value for `d` shown, and the host has read it:
WAIT has read BUSY some number of times and then the end, and READ the result. The record of reads is the model's own
field (notes/assumptions/13.md). -/
def Obligations.RunComputesOnTheLoadedBytes : Prop :=
  ∀ (i : Instr) (d : List Byte) (s : State) (rest : List HostAction),
    s.phase ≠ .busy → d.length ≤ s.params.maxInLen → s.script = runActions i d ++ rest →
      ∃ k m t, steps k s = .next t ∧ t.script = rest ∧ t.inLen = d.length ∧ t.input = d ∧ Shows t (codec i d) ∧
        t.seen = resultReads t ++ ⟨.status, (statusWord t).toNat⟩ :: (List.replicate m ⟨.status, 0x01⟩ ++ s.seen)

/-- R79: in phase DONE, RECODE copies the last result into the input and runs a command on it, whoever moves when
(`turns`, notes/assumptions/5.md); a result longer than `IBUF` ends in a refusal (R141: a write of `IBUF[i]`, `i >=
MAX_IN_LEN`); and outside phase DONE RECODE is refused. -/
def Obligations.RecodeRunsOnTheLastResult : Prop :=
  (∀ (i : Instr) (s : State) (rest : List HostAction),
    s.Inv → s.phase = .done → s.outLen ≤ s.params.maxInLen → s.script = .recode (encode i) :: rest →
      ∃ k t, steps k s = .next t ∧ t.script = rest ∧ t.input = s.result ∧ Shows t (codec i s.result)) ∧
  (∀ (i : Instr) (s : State) (rest : List HostAction),
    s.Inv → s.phase = .done → s.params.maxInLen < s.outLen → s.script = .recode (encode i) :: rest →
      ∃ k r, steps k s = .refused r) ∧
  (∀ (i : Instr) (s : State), s.phase ≠ .done → hostAct (.recode (encode i)) s = .refused .recodeOutsideDone)

/-! ## Invariants -/

/-- The state after reset meets the invariant, at every capacity. -/
def Obligations.ResetMeetsTheInvariant : Prop :=
  (∀ p : Params, p.wf = true → (State.resetFor p).Inv) ∧ State.reset.Inv

/-- Every step keeps the invariant: the buffers in canonical form and inside their ranges, every register inside its
width, the result registers as their phase allows (R24 to R28), `EBUF`, `ECNT` and `DACC` as R33 and R34 say, and while
BUSY `POS <= IN_LEN` and the engine's own invariant (R103, R112). -/
def Obligations.StepKeepsTheInvariant : Prop :=
  ∀ s t : State, s.Inv → step s = .next t → t.Inv

/-- R50 ("No access can fault", marked [derived] in the spec; the faults are the model's, notes/assumptions/11.md). A
step of a state of the invariant is never a fault. -/
def Obligations.StepNeverFaults : Prop :=
  ∀ (s : State) (f : Fault), s.Inv → step s ≠ .fault f

/-- R9 and R133 as the model carries them (notes/assumptions/1.md, 15.md): no step changes the parameters, or which
instance of its platform the CORE is. -/
def Obligations.StepKeepsTheParameters : Prop :=
  ∀ s t : State, step s = .next t → t.params = s.params ∧ t.inst = s.inst

/-- The canonical form of a buffer (the model's own, notes/assumptions/3.md): two buffers in it that read alike are
equal. -/
def Obligations.BuffersThatReadAlikeAreEqual : Prop :=
  ∀ m m' : Memory, Memory.wf m → Memory.wf m' → (∀ a, Memory.read m a = Memory.read m' a) → m = m'

/-! ## The platform -/

/-- R133, R55: a step of one instance leaves every other instance as it is, and two instances step in either order with
the same outcome. The list of instances is the model's own (notes/assumptions/15.md). -/
def Obligations.InstancesAreIndependent : Prop :=
  (∀ (P Q : Platform) (k j : Nat), P.stepAt k = some (.next Q) → j ≠ k → Q.cores[j]? = P.cores[j]?) ∧
  (∀ (P Q R : Platform) (k j : Nat), j ≠ k → P.stepAt k = some (.next Q) → Q.stepAt j = some (.next R) →
    ∃ Q', P.stepAt j = some (.next Q') ∧ Q'.stepAt k = some (.next R))

/-- R12 (`N_INST >= 1`) and R133: the platform after reset is well formed, and every step of an instance keeps it so; and
after reset every instance is in IDLE, with registers and unspecified bytes of its own. That instances may differ in
`MAX_IN_LEN`, and the number an instance carries, by which its free values are its own, are the model's choices
(notes/assumptions/15.md, 3.md, 4.md). -/
def Obligations.PlatformKeepsItsForm : Prop :=
  (∀ ps : List Params, 1 ≤ ps.length → (∀ p ∈ ps, p.wf = true) → (Platform.resetFor ps).wf = true) ∧
  (∀ (P Q : Platform) (k : Nat), P.wf = true → P.stepAt k = some (.next Q) → Q.wf = true) ∧
  (∀ (ps : List Params) (k : Nat) (p : Params), ps[k]? = some p → ∃ s, (Platform.resetFor ps).cores[k]? = some s ∧
    s.phase = .idle ∧ s.params = p ∧ s.inst = k ∧
    ∀ i, s.ibufByte i = Config.anyIbufByte k s.epoch i ∧ (readObuf i s).1 = Config.anyObufByte k s.draws)
end

