-- ==== Sys2Proof/Laws/Bits.lean ====
section
/-! SUPPORT. Fields and concatenations of bit vectors as numbers (00_scope.md R14, R15). -/

namespace Sys2Proof.Machine

/-- R15: the value of `a ++ b` is `a * 2^width(b) + b`. -/
theorem toNat_cat {m n : Nat} (x : BitVec m) (y : BitVec n) : (x ++ y).toNat = x.toNat * 2 ^ n + y.toNat := by
  rw [BitVec.toNat_append, ← Nat.shiftLeft_add_eq_or_of_lt y.isLt, Nat.shiftLeft_eq]

/-- R14: the value of the field `v[hi:lo]`. -/
theorem toNat_field {n : Nat} (hi lo : Nat) (v : BitVec n) :
    (v.extractLsb hi lo).toNat = v.toNat / 2 ^ lo % 2 ^ (hi - lo + 1) := by
  simp [Nat.shiftRight_eq_div_pow]

theorem ebuf_split (x : BitVec 16) : (x.extractLsb 15 8 ++ x.extractLsb 7 0 : BitVec 16) = x := by
  apply BitVec.eq_of_toNat_eq
  refine (toNat_cat (x.extractLsb 15 8) (x.extractLsb 7 0)).trans ?_
  rw [toNat_field, toNat_field]
  have := x.isLt
  omega

theorem ebuf_push_high (x b : Byte) : (x ++ b : BitVec 16).extractLsb 15 8 = x := by
  apply BitVec.eq_of_toNat_eq
  rw [toNat_field, toNat_cat]
  have := x.isLt
  have := b.isLt
  omega

theorem ebuf_push_low (x b : Byte) : (x ++ b : BitVec 16).extractLsb 7 0 = b := by
  apply BitVec.eq_of_toNat_eq
  rw [toNat_field, toNat_cat]
  have := b.isLt
  omega

/-- The values of a shift of the accumulator (43_decoder.md R113). -/
theorem shiftIn_toNat (acc : Group) (v : Sextet) : (shiftIn acc v).toNat = acc.toNat * 64 % 2 ^ 24 + v.toNat := by
  have hv := v.isLt
  have h1 : (acc <<< 6).toNat = acc.toNat * 64 % 2 ^ 24 := by
    simp [BitVec.toNat_shiftLeft, Nat.shiftLeft_eq]
  have h2 : (v.setWidth 24).toNat = v.toNat := by
    rw [BitVec.toNat_setWidth]; omega
  have h3 : acc.toNat * 64 % 2 ^ 24 = (acc.toNat % 2 ^ 18) <<< 6 := by
    rw [Nat.shiftLeft_eq]; omega
  unfold shiftIn
  rw [BitVec.toNat_or, h1, h2, h3, Nat.shiftLeft_add_eq_or_of_lt (by omega)]

end Sys2Proof.Machine
end

