-- ==== Sys2Proof/Laws/State.lean ====
section
/-! SUPPORT. One lemma per field of State per named update of State. -/

namespace Sys2Proof.Machine

variable (s : State) (r : Reason) (b : Byte)

/-! `statusAtIssue` -/

@[simp] theorem statusAtIssue_params : (statusAtIssue s).params = s.params := rfl
@[simp] theorem statusAtIssue_cmd : (statusAtIssue s).cmd = s.cmd := rfl
@[simp] theorem statusAtIssue_inLen : (statusAtIssue s).inLen = s.inLen := rfl
@[simp] theorem statusAtIssue_phase : (statusAtIssue s).phase = .busy := rfl
@[simp] theorem statusAtIssue_reason : (statusAtIssue s).reason = .none := rfl
@[simp] theorem statusAtIssue_outLen : (statusAtIssue s).outLen = 0 := rfl
@[simp] theorem statusAtIssue_errByte : (statusAtIssue s).errByte = 0x00 := rfl
@[simp] theorem statusAtIssue_estage : (statusAtIssue s).estage = s.estage := rfl
@[simp] theorem statusAtIssue_pos : (statusAtIssue s).pos = s.pos := rfl
@[simp] theorem statusAtIssue_wptr : (statusAtIssue s).wptr = s.wptr := rfl
@[simp] theorem statusAtIssue_ebuf : (statusAtIssue s).ebuf = s.ebuf := rfl
@[simp] theorem statusAtIssue_ecnt : (statusAtIssue s).ecnt = s.ecnt := rfl
@[simp] theorem statusAtIssue_dacc : (statusAtIssue s).dacc = s.dacc := rfl
@[simp] theorem statusAtIssue_dshift : (statusAtIssue s).dshift = s.dshift := rfl
@[simp] theorem statusAtIssue_ibuf : (statusAtIssue s).ibuf = s.ibuf := rfl
@[simp] theorem statusAtIssue_obuf : (statusAtIssue s).obuf = s.obuf := rfl
@[simp] theorem statusAtIssue_script : (statusAtIssue s).script = s.script := rfl
@[simp] theorem statusAtIssue_turns : (statusAtIssue s).turns = s.turns := rfl
@[simp] theorem statusAtIssue_seen : (statusAtIssue s).seen = s.seen := rfl
@[simp] theorem statusAtIssue_draws : (statusAtIssue s).draws = s.draws := rfl
@[simp] theorem statusAtIssue_epoch : (statusAtIssue s).epoch = s.epoch := rfl
@[simp] theorem statusAtIssue_inst : (statusAtIssue s).inst = s.inst := rfl

/-! `statusDone` -/

@[simp] theorem statusDone_params : (statusDone s).params = s.params := rfl
@[simp] theorem statusDone_cmd : (statusDone s).cmd = s.cmd := rfl
@[simp] theorem statusDone_inLen : (statusDone s).inLen = s.inLen := rfl
@[simp] theorem statusDone_phase : (statusDone s).phase = .done := rfl
@[simp] theorem statusDone_reason : (statusDone s).reason = s.reason := rfl
@[simp] theorem statusDone_outLen : (statusDone s).outLen = s.wptr := rfl
@[simp] theorem statusDone_errByte : (statusDone s).errByte = s.errByte := rfl
@[simp] theorem statusDone_estage : (statusDone s).estage = s.estage := rfl
@[simp] theorem statusDone_pos : (statusDone s).pos = s.pos := rfl
@[simp] theorem statusDone_wptr : (statusDone s).wptr = s.wptr := rfl
@[simp] theorem statusDone_ebuf : (statusDone s).ebuf = s.ebuf := rfl
@[simp] theorem statusDone_ecnt : (statusDone s).ecnt = s.ecnt := rfl
@[simp] theorem statusDone_dacc : (statusDone s).dacc = s.dacc := rfl
@[simp] theorem statusDone_dshift : (statusDone s).dshift = s.dshift := rfl
@[simp] theorem statusDone_ibuf : (statusDone s).ibuf = s.ibuf := rfl
@[simp] theorem statusDone_obuf : (statusDone s).obuf = s.obuf := rfl
@[simp] theorem statusDone_script : (statusDone s).script = s.script := rfl
@[simp] theorem statusDone_turns : (statusDone s).turns = s.turns := rfl
@[simp] theorem statusDone_seen : (statusDone s).seen = s.seen := rfl
@[simp] theorem statusDone_draws : (statusDone s).draws = s.draws := rfl
@[simp] theorem statusDone_epoch : (statusDone s).epoch = s.epoch := rfl
@[simp] theorem statusDone_inst : (statusDone s).inst = s.inst := rfl

/-! `statusError` -/

@[simp] theorem statusError_params : (statusError r b s).params = s.params := rfl
@[simp] theorem statusError_cmd : (statusError r b s).cmd = s.cmd := rfl
@[simp] theorem statusError_inLen : (statusError r b s).inLen = s.inLen := rfl
@[simp] theorem statusError_phase : (statusError r b s).phase = .error := rfl
@[simp] theorem statusError_reason : (statusError r b s).reason = r := rfl
@[simp] theorem statusError_outLen : (statusError r b s).outLen = 0 := rfl
@[simp] theorem statusError_errByte : (statusError r b s).errByte = b := rfl
@[simp] theorem statusError_estage : (statusError r b s).estage = s.estage := rfl
@[simp] theorem statusError_pos : (statusError r b s).pos = s.pos := rfl
@[simp] theorem statusError_wptr : (statusError r b s).wptr = s.wptr := rfl
@[simp] theorem statusError_ebuf : (statusError r b s).ebuf = s.ebuf := rfl
@[simp] theorem statusError_ecnt : (statusError r b s).ecnt = s.ecnt := rfl
@[simp] theorem statusError_dacc : (statusError r b s).dacc = s.dacc := rfl
@[simp] theorem statusError_dshift : (statusError r b s).dshift = s.dshift := rfl
@[simp] theorem statusError_ibuf : (statusError r b s).ibuf = s.ibuf := rfl
@[simp] theorem statusError_obuf : (statusError r b s).obuf = s.obuf := rfl
@[simp] theorem statusError_script : (statusError r b s).script = s.script := rfl
@[simp] theorem statusError_turns : (statusError r b s).turns = s.turns := rfl
@[simp] theorem statusError_seen : (statusError r b s).seen = s.seen := rfl
@[simp] theorem statusError_draws : (statusError r b s).draws = s.draws := rfl
@[simp] theorem statusError_epoch : (statusError r b s).epoch = s.epoch := rfl
@[simp] theorem statusError_inst : (statusError r b s).inst = s.inst := rfl

/-! `popTurn` -/

@[simp] theorem popTurn_params : (s.popTurn).params = s.params := rfl
@[simp] theorem popTurn_cmd : (s.popTurn).cmd = s.cmd := rfl
@[simp] theorem popTurn_inLen : (s.popTurn).inLen = s.inLen := rfl
@[simp] theorem popTurn_phase : (s.popTurn).phase = s.phase := rfl
@[simp] theorem popTurn_reason : (s.popTurn).reason = s.reason := rfl
@[simp] theorem popTurn_outLen : (s.popTurn).outLen = s.outLen := rfl
@[simp] theorem popTurn_errByte : (s.popTurn).errByte = s.errByte := rfl
@[simp] theorem popTurn_estage : (s.popTurn).estage = s.estage := rfl
@[simp] theorem popTurn_pos : (s.popTurn).pos = s.pos := rfl
@[simp] theorem popTurn_wptr : (s.popTurn).wptr = s.wptr := rfl
@[simp] theorem popTurn_ebuf : (s.popTurn).ebuf = s.ebuf := rfl
@[simp] theorem popTurn_ecnt : (s.popTurn).ecnt = s.ecnt := rfl
@[simp] theorem popTurn_dacc : (s.popTurn).dacc = s.dacc := rfl
@[simp] theorem popTurn_dshift : (s.popTurn).dshift = s.dshift := rfl
@[simp] theorem popTurn_ibuf : (s.popTurn).ibuf = s.ibuf := rfl
@[simp] theorem popTurn_obuf : (s.popTurn).obuf = s.obuf := rfl
@[simp] theorem popTurn_script : (s.popTurn).script = s.script := rfl
@[simp] theorem popTurn_turns : (s.popTurn).turns = s.turns.tail := rfl
@[simp] theorem popTurn_seen : (s.popTurn).seen = s.seen := rfl
@[simp] theorem popTurn_draws : (s.popTurn).draws = s.draws := rfl
@[simp] theorem popTurn_epoch : (s.popTurn).epoch = s.epoch := rfl
@[simp] theorem popTurn_inst : (s.popTurn).inst = s.inst := rfl

/-! `assertReset` -/

@[simp] theorem assertReset_params : (assertReset s).params = s.params := rfl
@[simp] theorem assertReset_cmd : (assertReset s).cmd = 0b00#2 := rfl
@[simp] theorem assertReset_inLen : (assertReset s).inLen = 0 := rfl
@[simp] theorem assertReset_phase : (assertReset s).phase = .idle := rfl
@[simp] theorem assertReset_reason : (assertReset s).reason = .none := rfl
@[simp] theorem assertReset_outLen : (assertReset s).outLen = 0 := rfl
@[simp] theorem assertReset_errByte : (assertReset s).errByte = 0x00#8 := rfl
@[simp] theorem assertReset_estage : (assertReset s).estage = .check := rfl
@[simp] theorem assertReset_pos : (assertReset s).pos = 0 := rfl
@[simp] theorem assertReset_wptr : (assertReset s).wptr = 0 := rfl
@[simp] theorem assertReset_ebuf : (assertReset s).ebuf = 0#16 := rfl
@[simp] theorem assertReset_ecnt : (assertReset s).ecnt = 0#2 := rfl
@[simp] theorem assertReset_dacc : (assertReset s).dacc = 0#24 := rfl
@[simp] theorem assertReset_dshift : (assertReset s).dshift = 0#2 := rfl
@[simp] theorem assertReset_ibuf : (assertReset s).ibuf = [] := rfl
@[simp] theorem assertReset_obuf : (assertReset s).obuf = [] := rfl
@[simp] theorem assertReset_script : (assertReset s).script = s.script := rfl
@[simp] theorem assertReset_turns : (assertReset s).turns = s.turns := rfl
@[simp] theorem assertReset_seen : (assertReset s).seen = s.seen := rfl
@[simp] theorem assertReset_draws : (assertReset s).draws = s.draws := rfl
@[simp] theorem assertReset_epoch : (assertReset s).epoch = s.epoch + 1 := rfl
@[simp] theorem assertReset_inst : (assertReset s).inst = s.inst := rfl

/-! `resetFor`, the host's own fields and the buffers -/

@[simp] theorem resetFor_params (p : Params) : (State.resetFor p).params = p := rfl
@[simp] theorem resetFor_phase (p : Params) : (State.resetFor p).phase = .idle := rfl
@[simp] theorem resetFor_inLen (p : Params) : (State.resetFor p).inLen = 0 := rfl
@[simp] theorem resetFor_ibuf (p : Params) : (State.resetFor p).ibuf = [] := rfl
@[simp] theorem resetFor_obuf (p : Params) : (State.resetFor p).obuf = [] := rfl
@[simp] theorem resetFor_script (p : Params) : (State.resetFor p).script = [] := rfl
@[simp] theorem resetFor_turns (p : Params) : (State.resetFor p).turns = [] := rfl

@[simp] theorem finishDone_eq : finishDone s = statusDone s := rfl
@[simp] theorem finishError_eq : finishError r b s = statusError r b s := rfl

end Sys2Proof.Machine
end

