-- ==== Sys2Proof/Laws/Ops.lean ====
section
/-! SUPPORT. What each shared operation can do: one lemma each, which later proofs cite instead of unfolding it. -/

namespace Sys2Proof.Machine

/-! Several bytes written at rising indices. -/

/-- Bytes written at rising indices from `a` on. -/
def Memory.writeAll (m : Memory) (a : Nat) : List Byte → Memory
  | [] => m
  | b :: rest => Memory.writeAll (Memory.write m a b) (a + 1) rest

theorem Memory.read_writeAll (m : Memory) (a : Nat) (bs : List Byte) (c : Nat) :
    Memory.read (Memory.writeAll m a bs) c = if a ≤ c ∧ c < a + bs.length then bs[c - a]? else Memory.read m c := by
  induction bs generalizing m a with
  | nil => simp [Memory.writeAll]
  | cons b rest ih =>
    rw [Memory.writeAll, ih, Memory.read_write]
    rcases Nat.lt_trichotomy c a with h | h | h
    · simp [show ¬ a + 1 ≤ c by omega, show ¬ a ≤ c by omega, show c ≠ a by omega]
    · subst h; simp
    · obtain ⟨d, rfl⟩ : ∃ d, c = a + 1 + d := ⟨c - (a + 1), by omega⟩
      simp only [List.length_cons, show a + 1 ≤ a + 1 + d by omega, show a ≤ a + 1 + d by omega, true_and,
        show a + 1 + d - (a + 1) = d by omega, show a + 1 + d - a = d + 1 by omega, List.getElem?_cons_succ,
        show a + 1 + d ≠ a by omega, if_false, show (a + 1 + d < a + 1 + rest.length) = (a + 1 + d < a + (rest.length + 1)) by
          simp only [eq_iff_iff]; omega]

theorem Memory.writeAll_append (m : Memory) (a : Nat) (bs cs : List Byte) :
    Memory.writeAll m a (bs ++ cs) = Memory.writeAll (Memory.writeAll m a bs) (a + bs.length) cs := by
  induction bs generalizing m a with
  | nil => rfl
  | cons b rest ih => simp [Memory.writeAll, ih, Nat.add_assoc, Nat.add_comm 1]

theorem Memory.wf_writeAll {m : Memory} (h : Memory.wf m) (a : Nat) (bs : List Byte) :
    Memory.wf (Memory.writeAll m a bs) := by
  induction bs generalizing m a with
  | nil => exact h
  | cons b rest ih => exact ih (Memory.wf_write h a b) (a + 1)

theorem Memory.within_writeAll {m : Memory} {n : Nat} (h : Memory.within m n) {a : Nat} {bs : List Byte}
    (ha : a + bs.length ≤ n) : Memory.within (Memory.writeAll m a bs) n := by
  induction bs generalizing m a with
  | nil => exact h
  | cons b rest ih =>
    simp only [List.length_cons] at ha
    exact ih (Memory.within_write h (by omega) b) (by omega)

/-! Issue (R88). -/

/-- The state an issue leaves. -/
def issued (w : CmdWord) (s : State) : State :=
  { statusAtIssue s with
    cmd := w, estage := .check, pos := 0, wptr := 0, ebuf := 0, ecnt := 0, dacc := 0, dshift := 0 }

theorem issue_eq_ok {w : CmdWord} {s : State} (hb : s.phase ≠ .busy) (hn : s.inLen ≤ s.params.maxInLen) :
    issue w s = .ok (issued w s) := by
  simp [issue, hb, Nat.not_lt.2 hn, issued]

theorem issue_ok_iff {w : CmdWord} {s t : State} :
    issue w s = .ok t ↔ s.phase ≠ .busy ∧ s.inLen ≤ s.params.maxInLen ∧ t = issued w s := by
  constructor
  · intro h
    by_cases hb : s.phase = .busy
    · simp [issue, hb] at h
    · by_cases hn : s.inLen ≤ s.params.maxInLen
      · rw [issue_eq_ok hb hn] at h
        exact ⟨hb, hn, (Except.ok.inj h).symm⟩
      · simp [issue, hb, Nat.lt_of_not_le hn] at h
  · rintro ⟨hb, hn, rfl⟩
    exact issue_eq_ok hb hn

/-- An issue changes the status and result registers, `CMD` and the engine's registers, and nothing else. -/
theorem issued_frame (w : CmdWord) (s : State) : EngineFrame { s with cmd := w } (issued w s) := by
  constructor <;> rfl

/-! Input and output (R90, R91). -/

theorem readIn_eq_ok {s : State} (h : s.pos < s.params.maxInLen) :
    readIn s = .ok (s.ibufByte s.pos, { s with pos := s.pos + 1 }) := by
  simp [readIn, h]

theorem readIn_ok_iff {s t : State} {b : Byte} :
    readIn s = .ok (b, t) ↔ s.pos < s.params.maxInLen ∧ b = s.ibufByte s.pos ∧ t = { s with pos := s.pos + 1 } := by
  unfold readIn
  split <;> simp_all [eq_comm]

theorem emitAll_eq_ok {bs : List Byte} {s : State} (h : s.wptr + bs.length ≤ s.params.maxOutLen) :
    emitAll bs s = .ok { s with obuf := Memory.writeAll s.obuf s.wptr bs, wptr := s.wptr + bs.length } := by
  induction bs generalizing s with
  | nil => rfl
  | cons b rest ih =>
    simp only [List.length_cons] at h
    have he : emit b s = .ok { s with obuf := Memory.write s.obuf s.wptr b, wptr := s.wptr + 1 } := by
      simp [emit, show s.wptr < s.params.maxOutLen by omega]
    rw [emitAll, he]
    simp only
    rw [ih (by simp only; omega)]
    simp [Memory.writeAll, Nat.add_assoc, Nat.add_comm 1]

theorem emitAll_ok {bs : List Byte} {s t : State} (h : emitAll bs s = .ok t) :
    t = { s with obuf := Memory.writeAll s.obuf s.wptr bs, wptr := s.wptr + bs.length } ∧
      (bs = [] ∨ s.wptr + bs.length ≤ s.params.maxOutLen) := by
  induction bs generalizing s with
  | nil => simp [emitAll] at h; simp [h, Memory.writeAll]
  | cons b rest ih =>
    by_cases hw : s.wptr < s.params.maxOutLen
    · have he : emit b s = .ok { s with obuf := Memory.write s.obuf s.wptr b, wptr := s.wptr + 1 } := by
        simp [emit, hw]
      rw [emitAll, he] at h
      obtain ⟨rfl, hb⟩ := ih h
      refine ⟨by simp [Memory.writeAll, Nat.add_assoc, Nat.add_comm 1], .inr ?_⟩
      rcases hb with rfl | hb
      · simpa using hw
      · simp only [List.length_cons] at hb ⊢; omega
    · simp [emitAll, emit, hw] at h

theorem emitAndFinish_eq_ok {bs : List Byte} {s : State} (h : s.wptr + bs.length ≤ s.params.maxOutLen) :
    emitAndFinish bs s =
      .ok (statusDone { s with obuf := Memory.writeAll s.obuf s.wptr bs, wptr := s.wptr + bs.length }) := by
  simp [emitAndFinish, emitAll_eq_ok h]

theorem emitAndFinish_ok {bs : List Byte} {s t : State} (h : emitAndFinish bs s = .ok t) :
    t = statusDone { s with obuf := Memory.writeAll s.obuf s.wptr bs, wptr := s.wptr + bs.length } ∧
      (bs = [] ∨ s.wptr + bs.length ≤ s.params.maxOutLen) := by
  unfold emitAndFinish at h
  split at h
  · simp at h
  · next h1 =>
    obtain ⟨rfl, hb⟩ := emitAll_ok h1
    simp at h
    exact ⟨h.symm, hb⟩

/-! The host's accesses (R141). -/

theorem writeIbuf_ok_iff {i : Nat} {v : Byte} {s t : State} :
    writeIbuf i v s = .ok t ↔
      i < s.params.maxInLen ∧ s.phase ≠ .busy ∧ t = { s with ibuf := Memory.write s.ibuf i v } := by
  unfold writeIbuf
  split
  · simp; omega
  · split <;> simp_all [eq_comm]

theorem writeInLen_ok_iff {n : Nat} {s t : State} :
    writeInLen n s = .ok t ↔ n < 2 ^ s.params.lenW ∧ s.phase ≠ .busy ∧ t = { s with inLen := n } := by
  unfold writeInLen
  split
  · simp; omega
  · split <;> simp_all [eq_comm]

/-- A host read changes at most the counter of unspecified `OBUF` reads. -/
theorem readObuf_state (j : Nat) (s : State) : ∃ d, (readObuf j s).2 = { s with draws := d } := by
  unfold readObuf
  split
  · exact ⟨s.draws, rfl⟩
  · exact ⟨s.draws + 1, rfl⟩

theorem readPort_ok {p : Port} {s t : State} {v : Nat} (h : readPort p s = .ok (v, t)) :
    ∃ d, t = { s with draws := d } := by
  cases p with
  | ibuf i =>
    simp only [readPort] at h
    split at h
    · exact ⟨s.draws, by simp at h; exact h.2.symm⟩
    · simp at h
  | obuf j =>
    simp only [readPort] at h
    split at h
    · obtain ⟨d, hd⟩ := readObuf_state j s
      exact ⟨d, by simp at h; rw [← h.2, hd]⟩
    · simp at h
  | _ => exact ⟨s.draws, by simp [readPort] at h; exact h.2.symm⟩

/-- A recorded read changes the record of reads and at most the counter of unspecified `OBUF` reads. -/
theorem observe_ok {p : Port} {s t : State} (h : observe p s = .ok t) :
    ∃ d v, t = { s with draws := d, seen := ⟨p, v⟩ :: s.seen } := by
  unfold observe at h
  split at h
  · simp at h
  · next v s1 h1 =>
    obtain ⟨d, rfl⟩ := readPort_ok h1
    simp at h
    exact ⟨d, v, h.symm⟩

end Sys2Proof.Machine
end

