-- ==== Sys2Proof/Laws/Encoder.lean ====
section
/-! SUPPORT. The encoder from a SCAN state to its end (42_encoder.md R103, R104), and the length of its text (R97). -/

namespace Sys2Proof.Machine

theorem EngineFrame.refl (s : State) : EngineFrame s s := by constructor <;> rfl

theorem EngineFrame.trans {s t u : State} (h : EngineFrame s t) (k : EngineFrame t u) : EngineFrame s u := by
  constructor
  · exact k.params.trans h.params
  · exact k.cmd.trans h.cmd
  · exact k.inLen.trans h.inLen
  · exact k.ibuf.trans h.ibuf
  · exact k.script.trans h.script
  · exact k.turns.trans h.turns
  · exact k.seen.trans h.seen
  · exact k.draws.trans h.draws
  · exact k.epoch.trans h.epoch
  · exact k.inst.trans h.inst

/-- The input does not change while the engine runs. -/
theorem EngineFrame.input {s t : State} (h : EngineFrame s t) : t.input = s.input := by
  have hb : t.ibufByte = s.ibufByte := by
    funext i; simp [State.ibufByte, h.ibuf, h.epoch, h.inst]
  rw [State.input, State.input, h.inLen, hb]

theorem EngineFrame.variant {s t : State} (h : EngineFrame s t) : t.variant = s.variant := by
  rw [State.variant, State.variant, h.cmd]

theorem EngineFrame.isDecode {s t : State} (h : EngineFrame s t) : t.isDecode = s.isDecode := by
  rw [State.isDecode, State.isDecode, h.cmd]

@[simp] theorem input_length (s : State) : s.input.length = s.inLen := by simp [State.input]

/-- The input from `POS` on begins with the byte READ_IN returns. -/
theorem input_drop_cons {s : State} (h : s.pos < s.inLen) :
    s.input.drop s.pos = s.ibufByte s.pos :: s.input.drop (s.pos + 1) := by
  rw [List.drop_eq_getElem_cons (by simpa using h)]
  simp [State.input]

/-- With no command BUSY the engine has no step. -/
theorem runEngine_of_not_busy {s : State} (h : s.phase ≠ .busy) (k : Nat) : runEngine k s = .ok s := by
  cases k <;> simp [runEngine, h]

theorem runEngine_succ_busy {s t : State} (h : s.phase = .busy) (he : engineStep s = .ok t) (k : Nat) :
    runEngine (k + 1) s = runEngine k t := by
  simp [runEngine, h, he]

theorem engineStep_encode {s : State} (hb : s.phase = .busy) (hd : s.isDecode = false) :
    engineStep s = encStep s.variant s := by
  simp [engineStep, hb, hd]

theorem engineStep_decode {s : State} (hb : s.phase = .busy) (hd : s.isDecode = true) :
    engineStep s = decStep s.variant s := by
  simp [engineStep, hb, hd]

/-- More steps than a command needs change nothing. -/
theorem runEngine_mono {k : Nat} {s t : State} (h : runEngine k s = .ok t) (ht : t.phase ≠ .busy) (j : Nat) :
    runEngine (k + j) s = .ok t := by
  induction k generalizing s with
  | zero =>
    simp [runEngine] at h
    subst h
    exact runEngine_of_not_busy ht _
  | succ k ih =>
    rw [Nat.succ_add]
    by_cases hb : s.phase = .busy
    · simp only [runEngine, hb, if_true] at h ⊢
      split at h
      · simp at h
      · exact ih h
    · rw [runEngine_of_not_busy hb] at h ⊢
      exact h

/-! The text. -/

@[simp] theorem groupSextets_length (g : Group) : (groupSextets g).length = 4 := rfl
@[simp] theorem tailSextets₁_length (b : Byte) : (tailSextets₁ b).length = 2 := rfl
@[simp] theorem tailSextets₂_length (b c : Byte) : (tailSextets₂ b c).length = 3 := rfl
@[simp] theorem padding_standard_length (k : Nat) : (padding .standard k).length = k := by simp [padding]
@[simp] theorem padding_urlSafe_length (k : Nat) : (padding .urlSafe k).length = 0 := rfl

theorem padding_length_le (var : Variant) (k : Nat) : (padding var k).length ≤ k := by
  cases var <;> simp

theorem encText_length_le (var : Variant) (s : List Byte) : (encText var s).length ≤ 4 * ((s.length + 2) / 3) := by
  induction s using encText.induct with
  | case1 => simp [encText]
  | case2 b0 => have := padding_length_le var 2; simp [encText]; omega
  | case3 b0 b1 => have := padding_length_le var 1; simp [encText]; omega
  | case4 b0 b1 b2 rest ih => simp [encText]; omega

/-- The bytes the encoder holds (10_state.md R33), oldest first. -/
def held (s : State) : List Byte :=
  if s.ecnt = 0#2 then []
  else if s.ecnt = 1#2 then [s.ebuf.extractLsb 7 0]
  else [s.ebuf.extractLsb 15 8, s.ebuf.extractLsb 7 0]

theorem ecnt_cases {c : BitVec 2} (h : c.toNat ≤ 2) : c = 0#2 ∨ c = 1#2 ∨ c = 2#2 := by
  revert h; revert c; decide

theorem encStep_scan {s : State} (hs : s.estage = .scan) (var : Variant) : encStep var s = encScan var s := by
  simp [encStep, hs]

/-- The encoder's SCAN step with input left and fewer than two bytes held. -/
theorem encScan_hold {s : State} (var : Variant) (hp : s.pos < s.inLen) (hn : s.inLen ≤ s.params.maxInLen)
    (hc : s.ecnt.toNat < 2) :
    encScan var s = .ok { s with
      pos := s.pos + 1, ebuf := s.ebuf.extractLsb 7 0 ++ s.ibufByte s.pos, ecnt := s.ecnt + 1 } := by
  simp [encScan, hp, readIn_eq_ok (show s.pos < s.params.maxInLen by omega), encTake, hc]

/-- The encoder's SCAN step with input left and two bytes held: it emits a full group. -/
theorem encScan_group {s : State} (var : Variant) (hp : s.pos < s.inLen) (hn : s.inLen ≤ s.params.maxInLen)
    (hc : ¬ s.ecnt.toNat < 2) (hw : s.wptr + 4 ≤ s.params.maxOutLen) :
    encScan var s = .ok { s with
      pos := s.pos + 1, ebuf := 0, ecnt := 0,
      obuf := Memory.writeAll s.obuf s.wptr ((groupSextets (s.ebuf ++ s.ibufByte s.pos)).map (fwd var)),
      wptr := s.wptr + 4 } := by
  have he := emitAll_eq_ok (bs := (groupSextets (s.ebuf ++ s.ibufByte s.pos)).map (fwd var))
    (s := { s with pos := s.pos + 1 }) (by simpa using hw)
  simp only [encScan, hp, if_true, readIn_eq_ok (show s.pos < s.params.maxInLen by omega), encTake, hc, if_false, he]
  simp

/-- The encoder from a SCAN state to its end: the bytes held and the input left are encoded, in two more steps than
there is input left (42_encoder.md R103, R104). -/
theorem encode_scan_run (r : List Byte) (s : State) (hb : s.phase = .busy) (hd : s.isDecode = false)
    (hs : s.estage = .scan) (hr : s.input.drop s.pos = r) (hp : s.pos ≤ s.inLen) (hn : s.inLen ≤ s.params.maxInLen)
    (hc : s.ecnt.toNat ≤ 2)
    (hw : s.wptr + (encText s.variant (held s ++ r)).length ≤ s.params.maxOutLen) :
    ∃ t, runEngine (r.length + 2) s = .ok t ∧ t.phase = .done ∧ t.reason = s.reason ∧ t.errByte = s.errByte ∧
      t.wptr = s.wptr + (encText s.variant (held s ++ r)).length ∧ t.outLen = t.wptr ∧ t.pos = s.inLen ∧
      t.obuf = Memory.writeAll s.obuf s.wptr (encText s.variant (held s ++ r)) ∧ EngineFrame s t := by
  induction r generalizing s with
  | nil =>
    have hpos : ¬ s.pos < s.inLen := by
      have := congrArg List.length hr
      simp at this; omega
    have h1 : engineStep s = .ok { s with estage := .tail } := by
      simp [engineStep_encode hb hd, encStep, hs, encScan, hpos]
    have ht : encTailBytes s.variant s = encText s.variant (held s) := by
      rcases ecnt_cases hc with h | h | h <;> simp [encTailBytes, held, h, encText]
    rw [List.append_nil] at hw ⊢
    rw [← ht] at hw ⊢
    have h2 : engineStep { s with estage := .tail } =
        .ok (statusDone { s with
          estage := .tail, obuf := Memory.writeAll s.obuf s.wptr (encTailBytes s.variant s),
          wptr := s.wptr + (encTailBytes s.variant s).length }) := by
      rw [engineStep_encode (s := { s with estage := .tail }) hb hd]
      exact emitAndFinish_eq_ok (s := { s with estage := .tail }) hw
    refine ⟨_, (runEngine_succ_busy hb h1 1).trans ((runEngine_succ_busy (s := { s with estage := .tail }) hb h2 0).trans
      (runEngine_of_not_busy (by simp) 0)), rfl, rfl, rfl, rfl, rfl, ?_, rfl, by constructor <;> rfl⟩
    show s.pos = s.inLen
    omega
  | cons b r ih =>
    have hpos : s.pos < s.inLen := by
      have := congrArg List.length hr
      simp at this; omega
    rw [input_drop_cons hpos, List.cons.injEq] at hr
    obtain ⟨hbyte, hr⟩ := hr
    by_cases hc2 : s.ecnt.toNat < 2
    · have h1 := (engineStep_encode hb hd).trans
        ((encStep_scan hs _).trans (encScan_hold s.variant hpos hn hc2))
      rw [hbyte] at h1
      generalize hu : ({ s with
        pos := s.pos + 1, ebuf := s.ebuf.extractLsb 7 0 ++ b, ecnt := s.ecnt + 1 } : State) = u at h1
      have hheld : held u = held s ++ [b] := by
        subst hu
        rcases ecnt_cases hc with h | h | h
        · simp [held, h, ebuf_push_low]
        · simp [held, h, ebuf_push_low, ebuf_push_high]
        · simp [h] at hc2
      have hv : u.variant = s.variant := by subst hu; rfl
      obtain ⟨t, ht, h⟩ := ih u (by subst hu; exact hb) (by subst hu; exact hd) (by subst hu; exact hs)
        (by subst hu; exact hr) (by subst hu; exact hpos) (by subst hu; exact hn)
        (by subst hu; rcases ecnt_cases hc with h | h | h <;> simp [h] at hc2 ⊢)
        (by rw [hheld, hv]; subst hu; simpa using hw)
      refine ⟨t, ?_, ?_⟩
      · rw [List.length_cons, show r.length + 1 + 2 = (r.length + 2) + 1 by omega, runEngine_succ_busy hb h1, ht]
      · rw [hheld, hv] at h
        have hf : EngineFrame s u := by subst hu; constructor <;> rfl
        subst hu
        simp only [List.append_assoc, List.singleton_append] at h
        exact ⟨h.1, h.2.1, h.2.2.1, h.2.2.2.1, h.2.2.2.2.1, h.2.2.2.2.2.1, h.2.2.2.2.2.2.1,
          hf.trans h.2.2.2.2.2.2.2⟩
    · have h2 : s.ecnt = 2#2 := by
        rcases ecnt_cases hc with h | h | h
        · simp [h] at hc2
        · simp [h] at hc2
        · exact h
      have hheld : held s = [s.ebuf.extractLsb 15 8, s.ebuf.extractLsb 7 0] := by simp [held, h2]
      have htext : encText s.variant (held s ++ b :: r) =
          (groupSextets (s.ebuf ++ b)).map (fwd s.variant) ++ encText s.variant r := by
        rw [hheld]
        simp only [List.cons_append, List.nil_append, encText]
        rw [ebuf_split]
      rw [htext] at hw ⊢
      rw [List.length_append, List.length_map, groupSextets_length] at hw
      have h1 := (engineStep_encode hb hd).trans
        ((encStep_scan hs _).trans (encScan_group s.variant hpos hn hc2 (by omega)))
      rw [hbyte] at h1
      generalize hu : ({ s with
        pos := s.pos + 1, ebuf := 0, ecnt := 0,
        obuf := Memory.writeAll s.obuf s.wptr ((groupSextets (s.ebuf ++ b)).map (fwd s.variant)),
        wptr := s.wptr + 4 } : State) = u at h1
      have hheld : held u = [] := by subst hu; rfl
      have hv : u.variant = s.variant := by subst hu; rfl
      obtain ⟨t, ht, h⟩ := ih u (by subst hu; exact hb) (by subst hu; exact hd) (by subst hu; exact hs)
        (by subst hu; exact hr) (by subst hu; exact hpos) (by subst hu; exact hn)
        (by subst hu; simp)
        (by rw [hheld, hv]; subst hu; simp only [List.nil_append]; omega)
      refine ⟨t, ?_, ?_⟩
      · rw [List.length_cons, show r.length + 1 + 2 = (r.length + 2) + 1 by omega, runEngine_succ_busy hb h1, ht]
      · rw [hheld, hv] at h
        have hf : EngineFrame s u := by subst hu; constructor <;> rfl
        subst hu
        simp only [List.nil_append] at h
        refine ⟨h.1, h.2.1, h.2.2.1, ?_, h.2.2.2.2.1, h.2.2.2.2.2.1, ?_, hf.trans h.2.2.2.2.2.2.2⟩
        · rw [h.2.2.2.1]; simp; omega
        · rw [h.2.2.2.2.2.2.1, Memory.writeAll_append]; simp

end Sys2Proof.Machine
end

