-- ==== Sys2Proof/Laws/Decoder.lean ====
section
/-! SUPPORT. The decoder from a SCAN state to its end (43_decoder.md R112 to R115). -/

namespace Sys2Proof.Machine

@[simp] theorem groupBytes_length (a : Group) : (groupBytes a).length = 3 := rfl
@[simp] theorem tailBytes₂_length (a : Group) : (tailBytes₂ a).length = 1 := rfl
@[simp] theorem tailBytes₃_length (a : Group) : (tailBytes₃ a).length = 2 := rfl

/-- What was emitted before plays no part in the rest of the loop of R105. -/
theorem decEnd_append (t u : List Byte) (acc : Group) (k : Nat) :
    decEnd (t ++ u) acc k = (decEnd u acc k).map (t ++ ·) := by
  unfold decEnd
  split <;> simp [Except.map]

theorem decLoop_append (var : Variant) (r t u : List Byte) (acc : Group) (k : Nat) :
    decLoop var r (t ++ u) acc k = (decLoop var r u acc k).map (t ++ ·) := by
  induction r generalizing u acc k with
  | nil => simp [decLoop, decEnd_append]
  | cons c r ih =>
    simp only [decLoop]
    split
    · exact decEnd_append t u acc k
    · rfl
    · rfl
    · split
      · rw [List.append_assoc, ih]
      · rw [ih]

/-- How a decode that emits `out` from the state `s` on ends, `r` being the value of the loop of R105 from there. -/
def DecodeEnds (s t : State) (out : List Byte) (r : Except InvalidInput (List Byte)) : Prop :=
  t.wptr = s.wptr + out.length ∧ t.obuf = Memory.writeAll s.obuf s.wptr out ∧ EngineFrame s t ∧
  match r with
  | .ok o => o = out ∧ t.phase = .done ∧ t.reason = s.reason ∧ t.errByte = s.errByte ∧ t.outLen = t.wptr
  | .error e => t.phase = .error ∧ t.reason = e.reason ∧ t.errByte = e.byte ∧ t.outLen = 0

theorem dshift_cases (c : BitVec 2) : c = 0#2 ∨ c = 1#2 ∨ c = 2#2 ∨ c = 3#2 := by
  revert c; decide

/-- The TAIL step of the decoder (R115). -/
theorem decTail_run {s : State} (hw : s.wptr + 3 * s.dshift.toNat / 4 ≤ s.params.maxOutLen) :
    ∃ t out, decTail s = .ok t ∧ out.length ≤ 3 * s.dshift.toNat / 4 ∧ t.pos = s.pos ∧
      DecodeEnds s t out (decEnd [] s.dacc s.dshift.toNat) := by
  rcases dshift_cases s.dshift with h | h | h | h
  · refine ⟨statusDone s, [], by simp [decTail, h], by simp, rfl, ?_⟩
    simp only [h]
    exact ⟨rfl, rfl, by constructor <;> rfl, rfl, rfl, rfl, rfl, rfl⟩
  · refine ⟨statusError .invalidShift 0x00 s, [], by simp [decTail, h], by simp, rfl, ?_⟩
    simp only [h]
    exact ⟨rfl, rfl, by constructor <;> rfl, rfl, rfl, rfl, rfl⟩
  · refine ⟨_, tailBytes₂ s.dacc, (show decTail s = emitAndFinish (tailBytes₂ s.dacc) s by simp [decTail, h]).trans
      (emitAndFinish_eq_ok (by simpa [h] using hw)), by simp [h], rfl, ?_⟩
    simp only [h]
    exact ⟨rfl, rfl, by constructor <;> rfl, rfl, rfl, rfl, rfl, rfl⟩
  · refine ⟨_, tailBytes₃ s.dacc, (show decTail s = emitAndFinish (tailBytes₃ s.dacc) s by simp [decTail, h]).trans
      (emitAndFinish_eq_ok (by simpa [h] using hw)), by simp [h], rfl, ?_⟩
    simp only [h]
    exact ⟨rfl, rfl, by constructor <;> rfl, rfl, rfl, rfl, rfl, rfl⟩

theorem decStep_scan {s : State} (hs : s.estage = .scan) (var : Variant) : decStep var s = decScan var s := by
  simp [decStep, hs]

theorem decStep_tail {s : State} (hs : s.estage = .tail) (var : Variant) : decStep var s = decTail s := by
  simp [decStep, hs]

/-- The SCAN step with input left takes the next byte. -/
theorem decScan_take {s : State} (var : Variant) (hp : s.pos < s.inLen) (hn : s.inLen ≤ s.params.maxInLen) :
    decScan var s = decTake var (s.ibufByte s.pos) { s with pos := s.pos + 1 } := by
  simp [decScan, hp, readIn_eq_ok (show s.pos < s.params.maxInLen by omega)]

/-- ACCUMULATE of a value that does not fill the group (R113). -/
theorem accumulate_keep {s : State} (v : Sextet) (h : s.dshift ≠ 3#2) :
    accumulate v s = .ok { s with dacc := shiftIn s.dacc v, dshift := s.dshift + 1 } := by
  have : s.dshift + 1 ≠ 0#2 := by
    rcases dshift_cases s.dshift with h' | h' | h' | h' <;> simp_all
  simp only [accumulate, this, if_false]

/-- ACCUMULATE of a value that fills the group flushes it (R113, R114). -/
theorem accumulate_flush {s : State} (v : Sextet) (h : s.dshift = 3#2) (hw : s.wptr + 3 ≤ s.params.maxOutLen) :
    accumulate v s = .ok { s with
      dacc := 0, dshift := 0, obuf := Memory.writeAll s.obuf s.wptr (groupBytes (shiftIn s.dacc v)),
      wptr := s.wptr + 3 } := by
  have he := emitAll_eq_ok (bs := groupBytes (shiftIn s.dacc v))
    (s := { s with dacc := shiftIn s.dacc v, dshift := 0#2 }) (by simpa using hw)
  simp only [accumulate, h, flush, show (3#2 + 1 : BitVec 2) = 0#2 from rfl, if_true, he]
  simp

/-- What a decode ends in does not depend on where in the run the frame is taken. -/
theorem DecodeEnds.of_frame {s u t : State} {out pre : List Byte} {r : Except InvalidInput (List Byte)}
    (hf : EngineFrame s u) (hw : u.wptr = s.wptr + pre.length) (ho : u.obuf = Memory.writeAll s.obuf s.wptr pre)
    (hr : u.reason = s.reason) (he : u.errByte = s.errByte) (h : DecodeEnds u t out r) :
    DecodeEnds s t (pre ++ out) (r.map (pre ++ ·)) := by
  obtain ⟨h1, h2, h3, h4⟩ := h
  refine ⟨by rw [h1, hw, List.length_append]; omega, by rw [h2, ho, hw, ← Memory.writeAll_append], hf.trans h3, ?_⟩
  cases r with
  | error e => exact h4
  | ok o =>
    obtain ⟨a, b, c, d, e⟩ := h4
    exact ⟨by rw [a], b, c.trans hr, d.trans he, e⟩

/-- The decoder from a SCAN state to its end: the rest of the input is decoded as the loop of R105 does, in at most two
more steps than there is input left. -/
theorem decode_scan_run (r : List Byte) (s : State) (hb : s.phase = .busy) (hd : s.isDecode = true)
    (hs : s.estage = .scan) (hr : s.input.drop s.pos = r) (hp : s.pos ≤ s.inLen) (hn : s.inLen ≤ s.params.maxInLen)
    (hw : s.wptr + 3 * (s.dshift.toNat + r.length) / 4 ≤ s.params.maxOutLen) :
    ∃ t out, runEngine (r.length + 2) s = .ok t ∧ out.length ≤ 3 * (s.dshift.toNat + r.length) / 4 ∧
      t.pos ≤ s.inLen ∧ DecodeEnds s t out (decLoop s.variant r [] s.dacc s.dshift.toNat) := by
  induction r generalizing s with
  | nil =>
    have hpos : ¬ s.pos < s.inLen := by
      have := congrArg List.length hr
      simp at this; omega
    have h1 : engineStep s = .ok { s with estage := .tail } := by
      simp [engineStep_decode hb hd, decStep_scan hs, decScan, hpos]
    obtain ⟨t, out, h2, h3, hpt, h4⟩ := decTail_run (s := { s with estage := .tail }) hw
    have h5 := (engineStep_decode (s := { s with estage := .tail }) hb hd).trans
      ((decStep_tail (s := { s with estage := .tail }) rfl _).trans h2)
    have hq : t.phase ≠ .busy := by
      have := h4.2.2.2
      revert this
      split <;> intro this
      · rw [this.2.1]; simp
      · rw [this.1]; simp
    refine ⟨t, out, (runEngine_succ_busy hb h1 1).trans
      ((runEngine_succ_busy (s := { s with estage := .tail }) hb h5 0).trans (runEngine_of_not_busy hq 0)), h3,
      by rw [hpt]; exact hp, ?_⟩
    have := h4.of_frame (s := s) (u := { s with estage := .tail }) (pre := []) (by constructor <;> rfl) rfl rfl rfl rfl
    rw [← decEnd_append] at this
    simpa [decLoop] using this
  | cons c r ih =>
    have hpos : s.pos < s.inLen := by
      have := congrArg List.length hr
      simp at this; omega
    rw [input_drop_cons hpos, List.cons.injEq] at hr
    obtain ⟨hbyte, hr⟩ := hr
    have h0 := (engineStep_decode hb hd).trans ((decStep_scan hs _).trans (decScan_take s.variant hpos hn))
    rw [hbyte] at h0
    rw [List.length_cons] at hw ⊢
    simp only [decLoop]
    cases hcl : classify s.variant c with
    | pad =>
      have h1 : engineStep s = .ok { s with pos := s.pos + 1, estage := .tail } := by rw [h0]; simp [decTake, hcl]
      obtain ⟨t, out, h2, h3, hpt, h4⟩ := decTail_run (s := { s with pos := s.pos + 1, estage := .tail })
        (by simp only; omega)
      have h5 := (engineStep_decode (s := { s with pos := s.pos + 1, estage := .tail }) hb hd).trans
        ((decStep_tail (s := { s with pos := s.pos + 1, estage := .tail }) rfl _).trans h2)
      have hq : t.phase ≠ .busy := by
        have := h4.2.2.2
        revert this
        split <;> intro this
        · rw [this.2.1]; simp
        · rw [this.1]; simp
      refine ⟨t, out, ?_, by simp only at h3; omega, by rw [hpt]; exact hpos, ?_⟩
      · rw [show r.length + 1 + 2 = (r.length + 1 + 1) + 1 by omega, runEngine_succ_busy hb h1,
          runEngine_succ_busy (s := { s with pos := s.pos + 1, estage := .tail }) hb h5]
        exact runEngine_of_not_busy hq _
      · have := h4.of_frame (s := s) (u := { s with pos := s.pos + 1, estage := .tail }) (pre := [])
          (by constructor <;> rfl) rfl rfl rfl rfl
        rw [← decEnd_append] at this
        simpa using this
    | disallowed =>
      have h1 : engineStep s = .ok (statusError .disallowedChar c { s with pos := s.pos + 1 }) := by
        rw [h0]; simp [decTake, hcl]
      refine ⟨_, [], (runEngine_succ_busy hb h1 _).trans (runEngine_of_not_busy (by simp) _), by simp, hpos, ?_⟩
      exact ⟨rfl, rfl, by constructor <;> rfl, rfl, rfl, rfl, rfl⟩
    | invalid =>
      have h1 : engineStep s = .ok (statusError .unrecognizedChar c { s with pos := s.pos + 1 }) := by
        rw [h0]; simp [decTake, hcl]
      refine ⟨_, [], (runEngine_succ_busy hb h1 _).trans (runEngine_of_not_busy (by simp) _), by simp, hpos, ?_⟩
      exact ⟨rfl, rfl, by constructor <;> rfl, rfl, rfl, rfl, rfl⟩
    | value v =>
      by_cases h3 : s.dshift = 3#2
      · have hw3 : s.wptr + 3 ≤ s.params.maxOutLen := by simp [h3] at hw; omega
        have h1 := h0.trans ((show decTake s.variant c { s with pos := s.pos + 1 } =
          accumulate v { s with pos := s.pos + 1 } by simp [decTake, hcl]).trans
          (accumulate_flush (s := { s with pos := s.pos + 1 }) v h3 hw3))
        generalize hu : ({ s with
          pos := s.pos + 1, dacc := 0, dshift := 0,
          obuf := Memory.writeAll s.obuf s.wptr (groupBytes (shiftIn s.dacc v)), wptr := s.wptr + 3 } : State) = u at h1
        obtain ⟨t, out, ht, ho, hpt, he⟩ := ih u (by subst hu; exact hb) (by subst hu; exact hd) (by subst hu; exact hs)
          (by subst hu; exact hr) (by subst hu; exact hpos) (by subst hu; exact hn)
          (by subst hu; simp [h3] at hw ⊢; omega)
        have hf : EngineFrame s u := by subst hu; constructor <;> rfl
        refine ⟨t, groupBytes (shiftIn s.dacc v) ++ out, (runEngine_succ_busy hb h1 _).trans ht, ?_, ?_, ?_⟩
        · subst hu
          simp [h3] at ho ⊢
          omega
        · subst hu; exact hpt
        · have := he.of_frame hf (pre := groupBytes (shiftIn s.dacc v)) (by subst hu; rfl) (by subst hu; rfl)
            (by subst hu; rfl) (by subst hu; rfl)
          rw [← decLoop_append, List.append_nil] at this
          have hv : u.variant = s.variant := hf.variant
          rw [hv] at this
          subst hu
          simpa [h3] using this
      · have h1 := h0.trans ((show decTake s.variant c { s with pos := s.pos + 1 } =
          accumulate v { s with pos := s.pos + 1 } by simp [decTake, hcl]).trans
          (accumulate_keep (s := { s with pos := s.pos + 1 }) v h3))
        generalize hu : ({ s with
          pos := s.pos + 1, dacc := shiftIn s.dacc v, dshift := s.dshift + 1 } : State) = u at h1
        have hk : (s.dshift + 1).toNat = s.dshift.toNat + 1 ∧ (s.dshift.toNat + 1) % 4 = s.dshift.toNat + 1 := by
          rcases dshift_cases s.dshift with h | h | h | h <;> simp_all
        obtain ⟨t, out, ht, ho, hpt, he⟩ := ih u (by subst hu; exact hb) (by subst hu; exact hd) (by subst hu; exact hs)
          (by subst hu; exact hr) (by subst hu; exact hpos) (by subst hu; exact hn)
          (by subst hu; simp only [hk.1]; omega)
        have hf : EngineFrame s u := by subst hu; constructor <;> rfl
        refine ⟨t, out, (runEngine_succ_busy hb h1 _).trans ht, ?_, ?_, ?_⟩
        · subst hu
          simp only [hk.1] at ho
          omega
        · subst hu; exact hpt
        · have := he.of_frame hf (pre := []) (by subst hu; rfl) (by subst hu; rfl)
            (by subst hu; rfl) (by subst hu; rfl)
          rw [← decLoop_append, List.append_nil] at this
          subst hu
          simp only
          rw [if_neg (by omega), hk.2]
          simp only [hk.1] at this
          exact this

end Sys2Proof.Machine
end

