-- ==== Sys2Proof/Laws/Commands.lean ====
section
/-! SUPPORT. A command from its issue to its end, for a word `w` (41_engine.md R88, R93). -/

namespace Sys2Proof.Machine

theorem issued_input (w : CmdWord) (s : State) : (issued w s).input = s.input := rfl

/-- An empty input ends either command in its first step (42_encoder.md R102, 43_decoder.md R111). -/
theorem empty_command_run {w : CmdWord} {s : State} (h0 : s.inLen = 0) (k : Nat) :
    runEngine (k + 1) (issued w s) = .ok (statusError .emptyInput 0x00 (issued w s)) := by
  have h1 : engineStep (issued w s) = .ok (statusError .emptyInput 0x00 (issued w s)) := by
    cases hd : w.getLsbD 0
    · rw [engineStep_encode (s := issued w s) rfl hd]
      simp [encStep, encCheck, issued, h0]
    · rw [engineStep_decode (s := issued w s) rfl hd]
      simp [decStep, decCheck, issued, h0]
  exact (runEngine_succ_busy (s := issued w s) rfl h1 k).trans (runEngine_of_not_busy (by simp) k)

/-- An encode of an input that is not empty. -/
theorem encode_command_run {w : CmdWord} {s : State} (hw : w.getLsbD 0 = false) (h0 : s.inLen ≠ 0)
    (hn : s.inLen ≤ s.params.maxInLen) :
    ∃ t, runEngine (s.inLen + 3) (issued w s) = .ok t ∧ t.phase = .done ∧ t.reason = .none ∧ t.errByte = 0x00 ∧
      t.wptr = (encText (wordVariant w) s.input).length ∧ t.outLen = t.wptr ∧ t.pos = s.inLen ∧
      t.obuf = Memory.writeAll s.obuf 0 (encText (wordVariant w) s.input) ∧ EngineFrame (issued w s) t := by
  have h1 : engineStep (issued w s) = .ok { issued w s with estage := .scan } := by
    rw [engineStep_encode (s := issued w s) rfl hw]
    simp [encStep, encCheck, issued, h0]
  have hl := encText_length_le (wordVariant w) s.input
  rw [input_length] at hl
  obtain ⟨t, ht, hp, hr, he, hwp, ho, hps, hob, hf⟩ := encode_scan_run s.input { issued w s with estage := .scan }
    rfl hw rfl (by rfl) (Nat.zero_le _) hn (Nat.zero_le _)
    (by
      show 0 + (encText (wordVariant w) ([] ++ s.input)).length ≤ 4 * ((s.params.maxInLen + 2) / 3)
      rw [List.nil_append]
      have : (s.inLen + 2) / 3 ≤ (s.params.maxInLen + 2) / 3 := Nat.div_le_div_right (by omega)
      omega)
  refine ⟨t, ?_, hp, hr, he, ?_, ho, hps, hob, ?_⟩
  · rw [show s.inLen + 3 = (s.input.length + 2) + 1 by simp, runEngine_succ_busy (s := issued w s) rfl h1, ht]
  · rw [hwp]
    show 0 + (encText (wordVariant w) ([] ++ s.input)).length = _
    simp
  · exact EngineFrame.trans (by constructor <;> rfl) hf

/-- A decode of an input that is not empty and passes the length check. -/
theorem decode_command_run {w : CmdWord} {s : State} (hw : w.getLsbD 0 = true) (h0 : s.inLen ≠ 0)
    (hl : ¬ (wordVariant w = .standard ∧ s.inLen % 4 ≠ 0)) (hn : s.inLen ≤ s.params.maxInLen) :
    ∃ t out, runEngine (s.inLen + 3) (issued w s) = .ok t ∧ out.length ≤ 3 * s.inLen / 4 ∧ t.pos ≤ s.inLen ∧
      DecodeEnds (issued w s) t out (decLoop (wordVariant w) s.input [] 0 0) := by
  have h1 : engineStep (issued w s) = .ok { issued w s with estage := .scan } := by
    rw [engineStep_decode (s := issued w s) rfl hw]
    have hv : (issued w s).variant = wordVariant w := rfl
    rw [hv]
    simp only [decStep, decCheck, issued, statusAtIssue_inLen, h0, if_false, hl]
  obtain ⟨t, out, ht, ho, hp, he⟩ := decode_scan_run s.input { issued w s with estage := .scan }
    rfl hw rfl (by rfl) (Nat.zero_le _) hn
    (by
      show 0 + 3 * (0 + s.input.length) / 4 ≤ 4 * ((s.params.maxInLen + 2) / 3)
      rw [input_length]
      omega)
  refine ⟨t, out, ?_, ?_, hp, ?_⟩
  · rw [show s.inLen + 3 = (s.input.length + 2) + 1 by simp, runEngine_succ_busy (s := issued w s) rfl h1, ht]
  · simpa [issued] using ho
  · have := DecodeEnds.of_frame (s := issued w s) (u := { issued w s with estage := .scan }) (pre := [])
      (by constructor <;> rfl) rfl rfl rfl rfl he
    rw [← decLoop_append] at this
    exact this

/-- A Standard decode whose length is no multiple of 4 ends in its first step (R111). -/
theorem bad_length_run {w : CmdWord} {s : State} (hw : w.getLsbD 0 = true) (h0 : s.inLen ≠ 0)
    (hl : wordVariant w = .standard ∧ s.inLen % 4 ≠ 0) (k : Nat) :
    runEngine (k + 1) (issued w s) = .ok (statusError .badLength 0x00 (issued w s)) := by
  have h1 : engineStep (issued w s) = .ok (statusError .badLength 0x00 (issued w s)) := by
    rw [engineStep_decode (s := issued w s) rfl hw]
    have hv : (issued w s).variant = wordVariant w := rfl
    rw [hv]
    simp only [decStep, decCheck, issued, statusAtIssue_inLen, h0, if_false, hl, ne_eq, not_false_eq_true,
      and_self, if_true, finishError_eq]
  exact (runEngine_succ_busy (s := issued w s) rfl h1 k).trans (runEngine_of_not_busy (by simp) k)

/-- In phase DONE the host reads the bytes that were written from index 0 on. -/
theorem result_of_written {t : State} {m : Memory} {bs : List Byte} (hp : t.phase = .done) (hl : t.outLen = bs.length)
    (ho : t.obuf = Memory.writeAll m 0 bs) : t.result = bs := by
  apply List.ext_getElem
  · simp [State.result, hl]
  · intro j h1 h2
    simp only [State.result, List.getElem_map, List.getElem_range, readObuf, hp, hl, h2, and_self, if_true, ho,
      Memory.read_writeAll]
    simp [h2]

/-- What a run of a command leaves, given the run of the engine. -/
theorem runCommand_eq {w : CmdWord} {s t : State} (hb : s.phase ≠ .busy) (hn : s.inLen ≤ s.params.maxInLen)
    (h : runEngine (s.inLen + 3) (issued w s) = .ok t) : runCommand w s = .next t := by
  have hi : (issued w s).inLen = s.inLen := rfl
  simp [runCommand, issue_eq_ok hb hn, stepBound, hi, h]

end Sys2Proof.Machine
end

