-- ==== Sys2Proof/Laws/Engine.lean ====
section
/-! SUPPORT. Everything an engine step can do, said once (41_engine.md R89; 42_encoder.md R102 to R104; 43_decoder.md R111
to R115). -/

namespace Sys2Proof.Machine

/-- The moves of the engine from a BUSY state, one constructor per branch of the stage rules. -/
inductive EngineMove (s : State) : State → Prop
  /-- CHECK, either command -/
  | empty : s.estage = .check → s.inLen = 0 → EngineMove s (statusError .emptyInput 0x00 s)
  | badLength : s.estage = .check → s.isDecode = true → s.inLen ≠ 0 → s.variant = .standard → s.inLen % 4 ≠ 0 →
      EngineMove s (statusError .badLength 0x00 s)
  | toScan : s.estage = .check → s.inLen ≠ 0 → ¬ (s.isDecode = true ∧ s.variant = .standard ∧ s.inLen % 4 ≠ 0) →
      EngineMove s { s with estage := .scan }
  /-- SCAN, the encoder -/
  | hold : s.estage = .scan → s.isDecode = false → s.pos < s.inLen → s.pos < s.params.maxInLen → s.ecnt.toNat < 2 →
      EngineMove s { s with
        pos := s.pos + 1, ebuf := s.ebuf.extractLsb 7 0 ++ s.ibufByte s.pos, ecnt := s.ecnt + 1 }
  | group : s.estage = .scan → s.isDecode = false → s.pos < s.inLen → s.pos < s.params.maxInLen →
      ¬ s.ecnt.toNat < 2 → s.wptr + 4 ≤ s.params.maxOutLen →
      EngineMove s { s with
        pos := s.pos + 1, ebuf := 0, ecnt := 0,
        obuf := Memory.writeAll s.obuf s.wptr ((groupSextets (s.ebuf ++ s.ibufByte s.pos)).map (fwd s.variant)),
        wptr := s.wptr + 4 }
  /-- SCAN, the decoder -/
  | pad : s.estage = .scan → s.isDecode = true → s.pos < s.inLen → s.pos < s.params.maxInLen →
      classify s.variant (s.ibufByte s.pos) = .pad → EngineMove s { s with pos := s.pos + 1, estage := .tail }
  | disallowed : s.estage = .scan → s.isDecode = true → s.pos < s.inLen → s.pos < s.params.maxInLen →
      classify s.variant (s.ibufByte s.pos) = .disallowed →
      EngineMove s (statusError .disallowedChar (s.ibufByte s.pos) { s with pos := s.pos + 1 })
  | invalid : s.estage = .scan → s.isDecode = true → s.pos < s.inLen → s.pos < s.params.maxInLen →
      classify s.variant (s.ibufByte s.pos) = .invalid →
      EngineMove s (statusError .unrecognizedChar (s.ibufByte s.pos) { s with pos := s.pos + 1 })
  | keep (v : Sextet) : s.estage = .scan → s.isDecode = true → s.pos < s.inLen → s.pos < s.params.maxInLen →
      classify s.variant (s.ibufByte s.pos) = .value v → s.dshift ≠ 3#2 →
      EngineMove s { s with pos := s.pos + 1, dacc := shiftIn s.dacc v, dshift := s.dshift + 1 }
  | fill (v : Sextet) : s.estage = .scan → s.isDecode = true → s.pos < s.inLen → s.pos < s.params.maxInLen →
      classify s.variant (s.ibufByte s.pos) = .value v → s.dshift = 3#2 → s.wptr + 3 ≤ s.params.maxOutLen →
      EngineMove s { s with
        pos := s.pos + 1, dacc := 0, dshift := 0,
        obuf := Memory.writeAll s.obuf s.wptr (groupBytes (shiftIn s.dacc v)), wptr := s.wptr + 3 }
  /-- SCAN with the input exhausted, either command -/
  | exhausted : s.estage = .scan → ¬ s.pos < s.inLen → EngineMove s { s with estage := .tail }
  /-- TAIL, the encoder and the decoder -/
  | finish (bytes : List Byte) : s.estage = .tail →
      (s.isDecode = false ∧ bytes = encTailBytes s.variant s ∨
        s.isDecode = true ∧ (s.dshift = 0#2 ∧ bytes = [] ∨ s.dshift = 2#2 ∧ bytes = tailBytes₂ s.dacc ∨
          s.dshift = 3#2 ∧ bytes = tailBytes₃ s.dacc)) →
      (bytes = [] ∨ s.wptr + bytes.length ≤ s.params.maxOutLen) →
      EngineMove s (statusDone { s with
        obuf := Memory.writeAll s.obuf s.wptr bytes, wptr := s.wptr + bytes.length })
  | badShift : s.estage = .tail → s.isDecode = true → s.dshift = 1#2 →
      EngineMove s (statusError .invalidShift 0x00 s)

/-- A step of the engine from a BUSY state is one of its moves. -/
theorem engineStep_ok {s t : State} (hb : s.phase = .busy) (h : engineStep s = .ok t) : EngineMove s t := by
  cases hd : s.isDecode
  · rw [engineStep_encode hb hd] at h
    unfold encStep at h
    split at h
    · next hs =>
      unfold encCheck at h
      split at h <;> (simp only [Except.ok.injEq] at h; subst h)
      · exact .empty hs ‹_›
      · exact .toScan hs ‹_› (by simp [hd])
    · next hs =>
      unfold encScan at h
      split at h
      · next hp =>
        split at h
        · simp at h
        · next b s1 h1 =>
          obtain ⟨hm, rfl, rfl⟩ := readIn_ok_iff.1 h1
          unfold encTake at h
          split at h
          · next hc =>
            simp only [Except.ok.injEq] at h; subst h
            exact .hold hs hd hp hm hc
          · next hc =>
            split at h
            · simp at h
            · next h2 =>
              obtain ⟨rfl, hw⟩ := emitAll_ok h2
              simp only [Except.ok.injEq] at h; subst h
              exact .group hs hd hp hm hc (hw.resolve_left (by simp [groupSextets]))
      · next hp =>
        simp only [Except.ok.injEq] at h; subst h
        exact .exhausted hs hp
    · next hs =>
      obtain ⟨rfl, hw⟩ := emitAndFinish_ok h
      exact .finish _ hs (.inl ⟨hd, rfl⟩) hw
  · rw [engineStep_decode hb hd] at h
    unfold decStep at h
    split at h
    · next hs =>
      unfold decCheck at h
      split at h
      · simp only [Except.ok.injEq] at h; subst h
        exact .empty hs ‹_›
      · split at h
        · next h0 hl =>
          simp only [Except.ok.injEq] at h; subst h
          exact .badLength hs hd h0 hl.1 hl.2
        · next hl =>
          simp only [Except.ok.injEq] at h; subst h
          exact .toScan hs ‹_› (fun hc => hl hc.2)
    · next hs =>
      unfold decScan at h
      split at h
      · next hp =>
        split at h
        · simp at h
        · next b s1 h1 =>
          obtain ⟨hm, rfl, rfl⟩ := readIn_ok_iff.1 h1
          unfold decTake at h
          split at h
          · next hc => simp only [Except.ok.injEq] at h; subst h; exact .pad hs hd hp hm hc
          · next hc => simp only [Except.ok.injEq] at h; subst h; exact .disallowed hs hd hp hm hc
          · next hc => simp only [Except.ok.injEq] at h; subst h; exact .invalid hs hd hp hm hc
          · next v hc =>
            by_cases h3 : s.dshift = 3#2
            · by_cases hw : s.wptr + 3 ≤ s.params.maxOutLen
              · rw [accumulate_flush (s := { s with pos := s.pos + 1 }) v h3 hw] at h
                simp only [Except.ok.injEq] at h; subst h
                exact .fill v hs hd hp hm hc h3 hw
              · simp only [accumulate, flush] at h
                rw [if_pos (by rw [h3]; rfl)] at h
                split at h
                · simp at h
                · next h2 =>
                  have := (emitAll_ok h2).2
                  simp only [groupBytes_length] at this
                  exact absurd (this.resolve_left (by simp [groupBytes])) hw
            · rw [accumulate_keep (s := { s with pos := s.pos + 1 }) v h3] at h
              simp only [Except.ok.injEq] at h; subst h
              exact .keep v hs hd hp hm hc h3
      · next hp =>
        simp only [Except.ok.injEq] at h; subst h
        exact .exhausted hs hp
    · next hs =>
      unfold decTail at h
      split at h
      · next h0 =>
        simp only [Except.ok.injEq] at h; subst h
        exact .finish [] hs (.inr ⟨hd, .inl ⟨h0, rfl⟩⟩) (.inl rfl)
      · split at h
        · next h2 =>
          obtain ⟨rfl, hw⟩ := emitAndFinish_ok h
          exact .finish _ hs (.inr ⟨hd, .inr (.inl ⟨h2, rfl⟩)⟩) hw
        · split at h
          · next h3 =>
            obtain ⟨rfl, hw⟩ := emitAndFinish_ok h
            exact .finish _ hs (.inr ⟨hd, .inr (.inr ⟨h3, rfl⟩)⟩) hw
          · simp only [Except.ok.injEq] at h; subst h
            refine .badShift hs hd ?_
            rcases dshift_cases s.dshift with h' | h' | h' | h' <;> simp_all

/-- A move of the engine leaves `CMD`, `IN_LEN`, `IBUF`, the parameters and the host's side as they are. -/
theorem EngineMove.frame {s t : State} (h : EngineMove s t) : EngineFrame s t := by
  cases h <;> (constructor <;> rfl)

/-! The engine neither reads nor writes the host's side. -/

/-- `s` with the host's side of `h`. -/
def State.withHost (h s : State) : State :=
  { s with script := h.script, turns := h.turns, seen := h.seen, draws := h.draws }

theorem emitAll_withHost (h : State) (bs : List Byte) (s : State) :
    emitAll bs (State.withHost h s) = (emitAll bs s).map (State.withHost h) := by
  induction bs generalizing s with
  | nil => rfl
  | cons b rest ih =>
    by_cases hw : s.wptr < s.params.maxOutLen
    · have he : emit b s = .ok { s with obuf := Memory.write s.obuf s.wptr b, wptr := s.wptr + 1 } := by
        simp [emit, hw]
      have he' : emit b (State.withHost h s) =
          .ok (State.withHost h { s with obuf := Memory.write s.obuf s.wptr b, wptr := s.wptr + 1 }) := by
        simp [emit, State.withHost, hw]
      simp only [emitAll, he, he', ih]
    · have he : emit b s = .error .obufWriteOutOfRange := by simp [emit, hw]
      have he' : emit b (State.withHost h s) = .error .obufWriteOutOfRange := by simp [emit, State.withHost, hw]
      simp only [emitAll, he, he', Except.map]

theorem emitAndFinish_withHost (h : State) (bs : List Byte) (s : State) :
    emitAndFinish bs (State.withHost h s) = (emitAndFinish bs s).map (State.withHost h) := by
  simp only [emitAndFinish, emitAll_withHost]
  cases emitAll bs s <;> rfl

theorem encTake_withHost (h : State) (var : Variant) (b : Byte) (s : State) :
    encTake var b (State.withHost h s) = (encTake var b s).map (State.withHost h) := by
  have he : (State.withHost h s).ebuf = s.ebuf := rfl
  have hc : (State.withHost h s).ecnt = s.ecnt := rfl
  simp only [encTake, he, hc, emitAll_withHost]
  split
  · rfl
  · cases emitAll ((groupSextets (s.ebuf ++ b)).map (fwd var)) s <;> rfl

theorem decTake_withHost (h : State) (var : Variant) (c : Byte) (s : State) :
    decTake var c (State.withHost h s) = (decTake var c s).map (State.withHost h) := by
  unfold decTake
  split
  · rfl
  · rfl
  · rfl
  · next v _ =>
    have hf : ∀ u : State, flush (State.withHost h u) = (flush u).map (State.withHost h) := by
      intro u
      have hd : (State.withHost h u).dacc = u.dacc := rfl
      simp only [flush, hd, emitAll_withHost]
      cases emitAll (groupBytes u.dacc) u <;> rfl
    have ha : accumulate v (State.withHost h s) = if s.dshift + 1 = 0#2 then
        flush (State.withHost h { s with dacc := shiftIn s.dacc v, dshift := s.dshift + 1 }) else
        .ok (State.withHost h { s with dacc := shiftIn s.dacc v, dshift := s.dshift + 1 }) := rfl
    rw [ha, hf]
    simp only [accumulate]
    split <;> rfl

theorem readIn_withHost (h s : State) :
    readIn (State.withHost h s) = (readIn s).map (fun r => (r.1, State.withHost h r.2)) := by
  by_cases hp : s.pos < s.params.maxInLen
  · have hp' : (State.withHost h s).pos < (State.withHost h s).params.maxInLen := hp
    rw [readIn_eq_ok hp, readIn_eq_ok hp']
    rfl
  · simp [readIn, State.withHost, hp, Except.map]

/-- A step of the engine under another host side is the same step, with that host side. -/
theorem engineStep_withHost (h s : State) : engineStep (State.withHost h s) = (engineStep s).map (State.withHost h) := by
  have hph : (State.withHost h s).phase = s.phase := rfl
  have hd : (State.withHost h s).isDecode = s.isDecode := rfl
  have hv : (State.withHost h s).variant = s.variant := rfl
  have hs : (State.withHost h s).estage = s.estage := rfl
  have hp : (State.withHost h s).pos = s.pos := rfl
  have hn : (State.withHost h s).inLen = s.inLen := rfl
  have hc : (State.withHost h s).dshift = s.dshift := rfl
  have ha : (State.withHost h s).dacc = s.dacc := rfl
  have ht : ∀ var, encTailBytes var (State.withHost h s) = encTailBytes var s := fun _ => rfl
  unfold engineStep
  simp only [hph, hd, hv]
  split
  · split
    · unfold decStep
      simp only [hs]
      split
      · simp only [decCheck, hn]
        split
        · rfl
        · split <;> rfl
      · simp only [decScan, hp, hn, readIn_withHost]
        split
        · cases readIn s with
          | error f => rfl
          | ok r => exact decTake_withHost h _ r.1 r.2
        · rfl
      · simp only [decTail, hc, ha, emitAndFinish_withHost]
        split
        · rfl
        · split
          · rfl
          · split <;> rfl
    · unfold encStep
      simp only [hs]
      split
      · simp only [encCheck, hn]
        split <;> rfl
      · simp only [encScan, hp, hn, readIn_withHost]
        split
        · cases readIn s with
          | error f => rfl
          | ok r => exact encTake_withHost h _ r.1 r.2
        · rfl
      · simp only [encTail, ht, emitAndFinish_withHost]
  · rfl

/-- A run of the engine under another host side is the same run, with that host side. -/
theorem runEngine_withHost (h : State) (k : Nat) (s : State) :
    runEngine k (State.withHost h s) = (runEngine k s).map (State.withHost h) := by
  induction k generalizing s with
  | zero => rfl
  | succ k ih =>
    have hph : (State.withHost h s).phase = s.phase := rfl
    simp only [runEngine, hph, engineStep_withHost]
    split
    · cases engineStep s with
      | error f => rfl
      | ok t => exact ih t
    · rfl

end Sys2Proof.Machine
end

