-- ==== Sys2Proof/Laws/PerInstr.lean ====
section
/-! SUPPORT. What holds of every command as syntax: its word. One lemma per constructor of Instr. -/

namespace Sys2Proof.Laws.CommandWord

/-- 30_encoding.md R56 to R58: a command is well formed, bit 0 of its word is `OP`, bit 1 names its variant, and the byte
of its `CMD` write decodes to it. -/
def Statement (i : Instr) : Prop :=
  i.wf = true ∧ (encodeWord i).getLsbD 0 = i.isDecode ∧ wordVariant (encodeWord i) = i.variant ∧
    decode (encode i) = .ok i

theorem encodeStd : Statement .encodeStd := ⟨rfl, rfl, rfl, rfl⟩

theorem decodeStd : Statement .decodeStd := ⟨rfl, rfl, rfl, rfl⟩

theorem encodeUrl : Statement .encodeUrl := ⟨rfl, rfl, rfl, rfl⟩

theorem decodeUrl : Statement .decodeUrl := ⟨rfl, rfl, rfl, rfl⟩

end Sys2Proof.Laws.CommandWord
end

