-- ==== Sys2Proof/Tests/Slice0.lean ====
section
/-! SUPPORT. The model's own tests. The expected results are the spec's: 30_encoding.md R58 (the command words) and
95_test_vectors.md (the vectors). Then, for every statement with hypotheses, states and operands that meet them. -/

namespace Sys2Proof.Tests

open Sys2Proof Sys2Proof.Machine

/-! ## Small states -/

/-- A CORE of capacity 4: `MAX_OUT_LEN = 8`, `LEN_W = 4`. -/
def small : Params := { maxInLen := 4 }

/-- Bytes at rising indices. -/
def cells (start : Nat) : List Byte → Memory
  | [] => []
  | b :: rest => (start, b) :: cells (start + 1) rest

/-- After reset, with `d` loaded. -/
def withInput (d : List Byte) : State :=
  { State.resetFor small with ibuf := cells 0 d, inLen := d.length }

/-- A command on `d`, issued and not yet begun. -/
def busyOn (w : CmdWord) (d : List Byte) : State := { withInput d with cmd := w, phase := .busy }

/-- The end of ENCODE.STD on `[0x4D]`: the result is `"TQ=="`. -/
def doneState : State :=
  { withInput [0x4D] with
    phase := .done, estage := .tail, pos := 1, wptr := 4, outLen := 4, ebuf := 0x004D, ecnt := 1,
    obuf := cells 0 [0x54, 0x51, 0x3D, 0x3D] }

/-- A host about to do `a`. -/
def about (a : HostAction) (s : State) : State := { s with script := [a] }

/-- What a host sees of a next state. -/
def shown : Host.Outcome State Fault Refusal → Option (Phase × Reason × Byte × List Byte)
  | .next t => some (t.phase, t.reason, t.errByte, t.result)
  | .fault _ => none
  | .refused _ => none

/-- The refusal an outcome ends in, if any. -/
def refusal : Host.Outcome State Fault Refusal → Option Refusal
  | .next _ => none
  | .fault _ => none
  | .refused r => some r

/-! ## WellFormed refuses -/

theorem test_params_without_capacity : Params.wf { maxInLen := 0 } = false := by decide

theorem test_no_command_word : commandWordWf [] = false ∧ decode [] = .error .noWord := by decide

theorem test_command_word_too_wide : commandWordWf [0x04] = false ∧ decode [0x04] = .error .bitsAboveWord := by decide

theorem test_second_byte_too_wide : commandWordWf [0x00, 0x01] = false ∧ decode [0x00, 0x01] = .error .bitsAboveWord := by
  decide

theorem test_port_out_of_range : Port.wf small (.ibuf 4) = false ∧ Port.wf small (.obuf 8) = false := by decide

theorem test_port_in_range : Port.wf small (.ibuf 3) = true ∧ Port.wf small (.obuf 7) = true := by decide

theorem test_action_index_out_of_range :
    HostAction.wf small (.writeIbuf 4 0x00) = false ∧ HostAction.wf small (.copyByte 4) = false ∧
    HostAction.wf small (.read (.ibuf 4)) = false ∧ HostAction.wf small (.read (.obuf 8)) = false := by decide

theorem test_action_value_too_wide : HostAction.wf small (.writeInLen 16) = false := by decide

theorem test_action_no_command_word :
    HostAction.wf small (.writeCmd [0x04]) = false ∧ HostAction.wf small (.command []) = false ∧
    HostAction.wf small (.recode [0x00, 0x80]) = false := by decide

theorem test_action_read_only :
    HostAction.wf small (.writeStatus 0x00) = false ∧ HostAction.wf small (.writeOutLen 0) = false ∧
    HostAction.wf small (.writeErrByte 0x00) = false ∧ HostAction.wf small (.writeObuf 0 0x00) = false := by decide

theorem test_platform_without_instances : Platform.wf { cores := [] } = false := by decide

theorem test_platform_instances_not_numbered :
    Platform.wf { cores := [State.resetFor small, State.resetFor small] } = false := by decide

/-! ## Decoding (30_encoding.md R58: VAR is bit 1, OP is bit 0) -/

theorem test_decode_encodeStd : decodeWord 0b00#2 = .encodeStd ∧ decodeTableWord 8 0b00 = some .encodeStd := by decide

theorem test_decode_decodeStd : decodeWord 0b01#2 = .decodeStd ∧ decodeTableWord 8 0b01 = some .decodeStd := by decide

theorem test_decode_encodeUrl : decodeWord 0b10#2 = .encodeUrl ∧ decodeTableWord 8 0b10 = some .encodeUrl := by decide

theorem test_decode_decodeUrl : decodeWord 0b11#2 = .decodeUrl ∧ decodeTableWord 8 0b11 = some .decodeUrl := by decide

theorem test_decode_wider_write : decode [0x03, 0x00, 0x00, 0x00] = .ok .decodeUrl := by decide

/-! ## The commands (95_test_vectors.md sections 1, 3 and 4) -/

/-- S3: `[0xFE]` gives `"/g=="`. -/
theorem test_encodeStd_one_byte :
    shown (exec .encodeStd (withInput [0xFE])) = some (.done, .none, 0x00, [0x2F, 0x67, 0x3D, 0x3D]) := by decide

/-- `FB FF` gives `"+/8="`. -/
theorem test_encodeStd_two_bytes :
    shown (exec .encodeStd (withInput [0xFB, 0xFF])) = some (.done, .none, 0x00, [0x2B, 0x2F, 0x38, 0x3D]) := by decide

/-- `FB FF BF` gives `"-_-_"`. -/
theorem test_encodeUrl_group :
    shown (exec .encodeUrl (withInput [0xFB, 0xFF, 0xBF])) = some (.done, .none, 0x00, [0x2D, 0x5F, 0x2D, 0x5F]) := by
  decide

/-- `01 02 03 04` gives `"AQIDBA"`. -/
theorem test_encodeUrl_group_and_tail :
    shown (exec .encodeUrl (withInput [0x01, 0x02, 0x03, 0x04])) =
      some (.done, .none, 0x00, [0x41, 0x51, 0x49, 0x44, 0x42, 0x41]) := by decide

/-- `"TWE="` gives `4D 61`. -/
theorem test_decodeStd_tail :
    shown (exec .decodeStd (withInput [0x54, 0x57, 0x45, 0x3D])) = some (.done, .none, 0x00, [0x4D, 0x61]) := by decide

/-- `"AQ!="` is `UNRECOGNIZED_CHAR` with byte 0x21. -/
theorem test_decodeStd_unrecognized :
    shown (exec .decodeStd (withInput [0x41, 0x51, 0x21, 0x3D])) = some (.error, .unrecognizedChar, 0x21, []) := by decide

/-- S5: `"_g"` gives `FE`. -/
theorem test_decodeUrl_tail :
    shown (exec .decodeUrl (withInput [0x5F, 0x67])) = some (.done, .none, 0x00, [0xFE]) := by decide

/-- `"////"` under UrlSafe is `DISALLOWED_CHAR` with byte 0x2F. -/
theorem test_decodeUrl_disallowed :
    shown (exec .decodeUrl (withInput [0x2F, 0x2F, 0x2F, 0x2F])) = some (.error, .disallowedChar, 0x2F, []) := by decide

/-- S16, as the first command after reset: `IN_LEN = 0` is `EMPTY_INPUT`. -/
theorem test_step_of_placed_word :
    shown (step (State.reset.withFetchWord 8 0b11)) = some (.error, .emptyInput, 0x00, []) := by decide

/-- 95_test_vectors.md section 2, `REV`. -/
theorem test_reverse_table :
    rev 0x2B = 0x7E ∧ rev 0x2D = 0x7E ∧ rev 0x2F = 0x7F ∧ rev 0x30 = 0x74 ∧ rev 0x39 = 0x7D ∧ rev 0x3D = 0x00 ∧
    rev 0x41 = 0x40 ∧ rev 0x5A = 0x59 ∧ rev 0x5F = 0x7F ∧ rev 0x61 = 0x5A ∧ rev 0x7A = 0x73 ∧ rev 0x80 = 0x00 := by
  decide

/-- 95_test_vectors.md, conventions: the `STATUS` of DONE is 0x02, of ERROR by reason 0x07, 0x0B, 0x0F, 0x13, 0x17; 0x00
after reset (70_reset_and_hazards.md R136) and 0x01 while BUSY (R144). -/
theorem test_status_words :
    statusWord State.reset = 0x00 ∧ statusWord (busyOn 0b00 [0x4D]) = 0x01 ∧ statusWord doneState = 0x02 ∧
    statusWord (statusError .emptyInput 0x00 State.reset) = 0x07 ∧
    statusWord (statusError .badLength 0x00 State.reset) = 0x0B ∧
    statusWord (statusError .disallowedChar 0x2B State.reset) = 0x0F ∧
    statusWord (statusError .unrecognizedChar 0x21 State.reset) = 0x13 ∧
    statusWord (statusError .invalidShift 0x00 State.reset) = 0x17 := by decide

/-! ## Refusals (70_reset_and_hazards.md R142, R143, R145; 30_encoding.md R79) -/

theorem test_issue_while_busy :
    refusal (hostAct (.writeCmd [0x00]) (busyOn 0b00 [0x4D])) = some .issueWhileBusy := by decide

theorem test_oversized_input :
    refusal (hostAct (.command [0x01]) { withInput [] with inLen := 5 }) = some .oversizedInput := by decide

theorem test_input_change_while_busy :
    refusal (hostAct (.writeIbuf 0 0x00) (busyOn 0b00 [0x4D])) = some .inputChangeWhileBusy := by decide

theorem test_recode_outside_done :
    refusal (hostAct (.recode [0x00]) (withInput [0x4D])) = some .recodeOutsideDone := by decide

/-! ## States that meet the hypotheses of the statements, clause by clause -/

theorem witness_busy_state_inv : (busyOn 0b00 [0x4D]).Inv where
  params := by decide
  ibufWf := by decide
  ibufWithin := by decide
  obufWf := by decide
  obufWithin := by decide
  inLenWidth := by decide
  posRange := by decide
  wptrRange := by decide
  written := by decide
  ecntRange := by decide
  ebufRange := by decide
  daccRange := by decide
  status := ⟨rfl, rfl, rfl⟩
  busy := fun _ => ⟨by decide, by decide, rfl, rfl, rfl, rfl⟩

theorem witness_done_state_inv : doneState.Inv where
  params := by decide
  ibufWf := by decide
  ibufWithin := by decide
  obufWf := by decide
  obufWithin := by decide
  inLenWidth := by decide
  posRange := by decide
  wptrRange := by decide
  written := by decide
  ecntRange := by decide
  ebufRange := by decide
  daccRange := by decide
  status := ⟨rfl, rfl, rfl⟩
  busy := fun h => absurd h (by decide)

/-- Three values accumulated, all bits set: the fullest accumulator of the invariant. -/
def fullAccumulator : State := { State.resetFor small with dacc := 0x03FFFF, dshift := 3 }

theorem witness_AccumulatorNeverLosesABit : fullAccumulator.Inv ∧ fullAccumulator.dshift = 3 :=
  ⟨{ params := by decide, ibufWf := by decide, ibufWithin := by decide, obufWf := by decide, obufWithin := by decide,
     inLenWidth := by decide, posRange := by decide, wptrRange := by decide, written := by decide,
     ecntRange := by decide, ebufRange := by decide, daccRange := by decide, status := ⟨rfl, rfl, rfl⟩,
     busy := fun h => absurd h (by decide) }, rfl⟩

theorem witness_StepRunsTheDecodedCommand :
    (about (.command [0x01]) (withInput [0x4D])).mover = .host ∧
    (about (.command [0x01]) (withInput [0x4D])).script = .command [0x01] :: [] ∧
    decode [0x01] = .ok .decodeStd ∧ Instr.decodeStd.wf = true ∧ decodeTableWord 2 0b10 = some .encodeUrl := by decide

/-- An issue in IDLE with `IN_LEN = MAX_IN_LEN`, in DONE, while BUSY, and with `IN_LEN = MAX_IN_LEN + 1`. -/
theorem witness_WritingCmdIssuesTheCommand :
    (let s := about (.writeCmd (encode .decodeUrl)) (withInput [0x41, 0x41, 0x41, 0x41])
     s.mover = .host ∧ s.script = .writeCmd (encode .decodeUrl) :: [] ∧ s.phase ≠ .busy ∧ s.inLen ≤ s.params.maxInLen) ∧
    (let s := about (.writeCmd (encode .encodeStd)) doneState
     s.mover = .host ∧ s.script = .writeCmd (encode .encodeStd) :: [] ∧ s.phase ≠ .busy ∧ s.inLen ≤ s.params.maxInLen) ∧
    (let s := { about (.writeCmd (encode .encodeStd)) (busyOn 0b00 [0x4D]) with turns := [.host] }
     s.mover = .host ∧ s.script = .writeCmd (encode .encodeStd) :: [] ∧ s.phase = .busy) ∧
    (let s := { about (.writeCmd (encode .encodeStd)) (withInput []) with inLen := 5 }
     s.mover = .host ∧ s.script = .writeCmd (encode .encodeStd) :: [] ∧ s.params.maxInLen < s.inLen) := by decide

theorem witness_EngineHasAStepExactlyWhenBusy :
    ((busyOn 0b00 [0x4D]).Inv ∧ (busyOn 0b00 [0x4D]).phase = .busy) ∧ doneState.phase ≠ .busy :=
  ⟨⟨witness_busy_state_inv, rfl⟩, by decide⟩

theorem witness_CommandsRunExactlyWhenAllowed :
    (doneState.phase ≠ .busy ∧ doneState.inLen ≤ doneState.params.maxInLen) ∧ (busyOn 0b00 [0x4D]).phase = .busy ∧
    (let s : State := { withInput [] with inLen := 5 }
     s.phase ≠ .busy ∧ s.params.maxInLen < s.inLen) := by decide

/-- Both encode commands, on no byte and on `MAX_IN_LEN` bytes. -/
theorem witness_EncodeCommandsComputeEnc :
    Instr.encodeStd.isDecode = false ∧ Instr.encodeUrl.isDecode = false ∧
    (withInput []).phase ≠ .busy ∧ (withInput []).inLen ≤ (withInput []).params.maxInLen ∧
    (let s := withInput [0x00, 0xFF, 0x00, 0xFF]
     s.phase ≠ .busy ∧ s.inLen = s.params.maxInLen) := by decide

/-- Both decode commands, on no byte and on `MAX_IN_LEN` bytes. -/
theorem witness_DecodeCommandsComputeDec :
    Instr.decodeStd.isDecode = true ∧ Instr.decodeUrl.isDecode = true ∧
    (withInput []).phase ≠ .busy ∧ (withInput []).inLen ≤ (withInput []).params.maxInLen ∧
    (let s := withInput [0x54, 0x57, 0x46, 0x75]
     s.phase ≠ .busy ∧ s.inLen = s.params.maxInLen) := by decide

theorem witness_StepwiseRunComputesTheFunction :
    let s := about (.writeCmd (encode .decodeStd)) doneState
    s.phase ≠ .busy ∧ s.inLen ≤ s.params.maxInLen ∧ s.turns = [] ∧ s.script = .writeCmd (encode .decodeStd) :: [] := by
  decide

theorem witness_OneStepCommandEqualsItsEngineSteps :
    let s := about (.writeCmd (encode .encodeUrl)) (withInput [0x4D])
    s.phase ≠ .busy ∧ s.inLen ≤ s.params.maxInLen ∧ s.turns = [] ∧ s.script = .writeCmd (encode .encodeUrl) :: [] := by
  decide

/-- An input with a cause of every kind that is checked later (R123), and one with none. -/
theorem witness_CommandsReportTheFirstCause :
    let s := withInput [0x2D, 0x21, 0x41]
    s.phase ≠ .busy ∧ s.inLen ≤ s.params.maxInLen ∧
    firstCause .decodeStd s.input = some ⟨.badLength, 0x00⟩ ∧ firstCause .decodeUrl s.input = some ⟨.unrecognizedChar, 0x21⟩ ∧
    firstCause .encodeStd s.input = none := by decide

/-- Lengths 1 and `MAX_IN_LEN`, either variant. -/
theorem witness_EncodeOutputLength :
    (let s := withInput [0xFF]
     Instr.encodeStd.isDecode = false ∧ Instr.encodeStd.variant = .standard ∧ s.phase ≠ .busy ∧ 1 ≤ s.inLen ∧
       s.inLen ≤ s.params.maxInLen) ∧
    (let s := withInput [0xFF, 0xFF, 0xFF, 0xFF]
     Instr.encodeUrl.isDecode = false ∧ Instr.encodeUrl.variant = .urlSafe ∧ s.phase ≠ .busy ∧ 1 ≤ s.inLen ∧
       s.inLen ≤ s.params.maxInLen) := by decide

/-- A decode that ends in DONE with three characters accepted before the `'='`. -/
theorem witness_DecodeOutputLength :
    ∃ t, exec .decodeStd (withInput [0x54, 0x57, 0x45, 0x3D]) = .next t ∧ Instr.decodeStd.isDecode = true ∧
      t.phase = .done ∧ t.outLen = 2 := ⟨_, rfl, rfl, rfl, rfl⟩

/-- Two states that agree on the input alone: after reset, and at the end of another command on other old output. -/
theorem witness_ResultDependsOnlyOnTheInput :
    (withInput [0x4D]).inLen = doneState.inLen ∧ (∀ k < (withInput [0x4D]).inLen, (withInput [0x4D]).ibufByte k = doneState.ibufByte k) ∧
    (∃ t, exec .encodeUrl (withInput [0x4D]) = .next t) ∧ (∃ t, exec .encodeUrl doneState = .next t) :=
  ⟨by decide, by decide, ⟨_, rfl⟩, ⟨_, rfl⟩⟩

theorem witness_CommandFrame : ∃ t, exec .encodeStd doneState = .next t := ⟨_, rfl⟩

theorem witness_EngineStepFrame : ∃ t, engineStep (busyOn 0b00 [0x4D]) = .ok t := ⟨_, rfl⟩

/-- A step that raises each of the five reasons, and one that raises none. -/
theorem witness_AnErrorHasItsCause :
    (∃ t, engineStep (busyOn 0b00 []) = .ok t ∧ t.reason = .emptyInput) ∧
    (∃ t, engineStep (busyOn 0b01 [0x41]) = .ok t ∧ t.reason = .badLength) ∧
    (∃ t, engineStep { busyOn 0b11 [0x2B] with estage := .scan } = .ok t ∧ t.reason = .disallowedChar) ∧
    (∃ t, engineStep { busyOn 0b11 [0x21] with estage := .scan } = .ok t ∧ t.reason = .unrecognizedChar) ∧
    (∃ t, engineStep { busyOn 0b11 [0x41] with estage := .tail, pos := 1, dshift := 1 } = .ok t ∧
      t.reason = .invalidShift) ∧
    (∃ t, engineStep (busyOn 0b11 [0x41]) = .ok t ∧ t.phase = .busy) :=
  ⟨⟨_, rfl, rfl⟩, ⟨_, rfl, rfl⟩, ⟨_, rfl, rfl⟩, ⟨_, rfl, rfl⟩, ⟨_, rfl, rfl⟩, ⟨_, rfl, rfl⟩⟩

theorem witness_CommandsEndWithinTheStepBound : ∃ s₁, issue 0b11 doneState = .ok s₁ := ⟨_, rfl⟩

theorem witness_EncodeTakesExactlyTheStepBound :
    Instr.encodeStd.isDecode = false ∧ (∃ s₁, issue (encodeWord .encodeStd) (withInput [0x4D]) = .ok s₁) ∧
    1 ≤ (withInput [0x4D]).inLen := ⟨rfl, ⟨_, rfl⟩, by decide⟩

/-- A BUSY command and a host with nothing to do; and a host that polls and reads, with turns fixed for both agents. -/
theorem witness_BusyCommandEndsWhoeverMoves :
    ((busyOn 0b00 [0x4D]).Inv ∧ (busyOn 0b00 [0x4D]).phase = .busy ∧ (busyOn 0b00 [0x4D]).hostPolls) ∧
    (let s := { busyOn 0b00 [0x4D] with
       script := [.wait, .read .status, .read (.obuf 7), .read (.ibuf 3), .readResult], turns := [.host, .engine, .host] }
     s.Inv ∧ s.phase = .busy ∧ s.hostPolls) :=
  ⟨⟨witness_busy_state_inv, rfl, by unfold State.hostPolls; decide⟩,
    { witness_busy_state_inv with }, rfl, by unfold State.hostPolls; decide⟩

theorem witness_CommandShowsItsValueWhoeverMoves :
    let s := { withInput [0x4D] with script := [.wait, .readResult], turns := [.host, .engine, .host] }
    (∃ s₁, issue (encodeWord .encodeStd) s = .ok s₁) ∧ s.hostPolls :=
  ⟨⟨_, rfl⟩, by unfold State.hostPolls; decide⟩

theorem witness_WaitRepeatsWhileBusy : (busyOn 0b00 [0x4D]).phase = .busy ∧ doneState.phase ≠ .busy := by decide

theorem witness_WaitSeesTheEndOfTheCommand :
    let s := { about .wait (busyOn 0b01 [0x41]) with turns := [.host, .engine, .host] }
    s.Inv ∧ s.phase = .busy ∧ s.script = .wait :: [] :=
  ⟨{ params := by decide, ibufWf := by decide, ibufWithin := by decide, obufWf := by decide, obufWithin := by decide,
     inLenWidth := by decide, posRange := by decide, wptrRange := by decide, written := by decide,
     ecntRange := by decide, ebufRange := by decide, daccRange := by decide, status := ⟨rfl, rfl, rfl⟩,
     busy := fun _ => ⟨by decide, by decide, rfl, rfl, rfl, rfl⟩ }, rfl, rfl⟩

/-- Four steps into ENCODE.STD of three bytes the group has been emitted. -/
theorem witness_EncoderOutputIsAPrefixOfTheResult :
    ∃ s₁ t, Instr.encodeStd.isDecode = false ∧ issue (encodeWord .encodeStd) (withInput [0x4D, 0x61, 0x6E]) = .ok s₁ ∧
      runEngine 4 s₁ = .ok t ∧ t.wptr = 4 := ⟨_, _, rfl, rfl, rfl, rfl⟩

/-- ENCODE.STD of `[0x4D]`, then its result `"TQ=="` as the input of DECODE.STD. -/
theorem witness_RoundTrip :
    enc .standard [0x4D] = .ok [0x54, 0x51, 0x3D, 0x3D] ∧
    ∃ t, Instr.encodeStd.isDecode = false ∧ Instr.decodeStd.isDecode = true ∧
      Instr.decodeStd.variant = Instr.encodeStd.variant ∧ exec .encodeStd (withInput [0x4D]) = .next t ∧
      t.phase = .done ∧ (withInput [0x54, 0x51, 0x3D, 0x3D]).phase ≠ .busy ∧
      (withInput [0x54, 0x51, 0x3D, 0x3D]).inLen ≤ (withInput [0x54, 0x51, 0x3D, 0x3D]).params.maxInLen ∧
      (withInput [0x54, 0x51, 0x3D, 0x3D]).input = t.result :=
  ⟨by decide, _, rfl, rfl, rfl, rfl, rfl, by decide, by decide, by decide⟩

/-- One, two and three bytes over a multiple of 3. -/
theorem witness_EncodeTextProperties :
    1 ≤ ([0x00] : List Byte).length ∧ ([0x00] : List Byte).length % 3 = 1 ∧
    1 ≤ ([0x00, 0x00] : List Byte).length ∧ ([0x00, 0x00] : List Byte).length % 3 = 2 ∧
    1 ≤ ([0x00, 0x00, 0x00] : List Byte).length ∧ ([0x00, 0x00, 0x00] : List Byte).length % 3 = 0 := by decide

theorem witness_DecodeStopsAtTheFirstPad :
    ([0x3D] : List Byte).length = ([0x21] : List Byte).length ∧
    (Variant.standard = .standard → (([0x2B, 0x2B, 0x2B] : List Byte).length + 1) % 4 = 0) ∧
    ([0x41] : List Byte).length % 4 ≠ 0 := by decide

/-- `Q` and `R` (values 16 and 17), `E` and `F` (values 4 and 5): equal in the bits that are kept; either end of the
scan. -/
theorem witness_DroppedBitsAreNotChecked :
    (([] : List Byte).length % 4 = 0 ∧ (16#6).extractLsb 5 4 = (17#6).extractLsb 5 4 ∧ fwd .standard 16 ≠ fwd .standard 17) ∧
    (([0x41, 0x41, 0x41, 0x41] : List Byte).length % 4 = 0 ∧ (4#6).extractLsb 5 2 = (5#6).extractLsb 5 2 ∧
      fwd .urlSafe 4 ≠ fwd .urlSafe 5) ∧
    (([] : List Byte) = [] ∨ ∃ u, ([] : List Byte) = padChar :: u) ∧
    (([0x3D, 0x21] : List Byte) = [] ∨ ∃ u, ([0x3D, 0x21] : List Byte) = padChar :: u) :=
  ⟨by decide, by decide, .inl rfl, .inr ⟨[0x21], rfl⟩⟩

/-- `"AQ"` fails the check; `"AAAA"` does not. -/
theorem witness_LengthCheckIsStandardOnly :
    0 < ([0x41, 0x51] : List Byte).length ∧ ([0x41, 0x51] : List Byte).length % 4 ≠ 0 ∧
    (∀ c ∈ scanned [0x41, 0x51], isBad .urlSafe c = false) ∧ (scanned [0x41, 0x51]).length % 4 ≠ 1 := by decide

/-- The ends of the three ranges. -/
theorem witness_AlphabetsHaveTheAsciiCodes :
    (25#6).toNat ≤ 25 ∧ (26 ≤ (26#6).toNat ∧ (26#6).toNat ≤ 51) ∧ (26 ≤ (51#6).toNat ∧ (51#6).toNat ≤ 51) ∧
    (52 ≤ (52#6).toNat ∧ (52#6).toNat ≤ 61) ∧ (52 ≤ (61#6).toNat ∧ (61#6).toNat ≤ 61) := by decide

theorem witness_ReverseTableInvertsBothAlphabets :
    (revIsValid 0x5F = true ∧ revValue 0x5F = 63) ∧ revIsValid 0x3D = false := by decide

theorem witness_TableLaws : classify .urlSafe 0x5F = .value 63 := by decide

/-- Values 61 and 62, and a text without and one with a character of its own variant. -/
theorem witness_CrossVariantLaw :
    Variant.standard ≠ .urlSafe ∧ 62 ≤ (62#6).toNat ∧ (61#6).toNat ≤ 61 ∧
    enc .urlSafe [0x4D, 0x61, 0x6E] = .ok [0x54, 0x57, 0x46, 0x75] ∧
    enc .urlSafe [0xFF, 0xFF, 0xFF] = .ok [0x5F, 0x5F, 0x5F, 0x5F] := by decide

/-- The least capacity, and a width that suffices for it. -/
theorem witness_LengthWidthIsLeast : Params.wf { maxInLen := 1 } = true ∧ Params.maxOutLen { maxInLen := 1 } < 2 ^ 3 := by
  decide

/-- The last index and the first out of range; the widest value; not BUSY and BUSY. -/
theorem witness_HostWritesFollowTheTable :
    (3 < doneState.params.maxInLen ∧ doneState.phase ≠ .busy) ∧ doneState.params.maxInLen ≤ 4 ∧
    15 < 2 ^ doneState.params.lenW ∧ (busyOn 0b00 [0x4D]).phase = .busy := by decide

/-- The last index of either buffer, the first out of range; inside a DONE result, and outside one. -/
theorem witness_HostReadsFollowTheTable :
    3 < doneState.params.maxInLen ∧
    (3 < doneState.params.maxOutLen ∧ doneState.phase = .done ∧ 3 < doneState.outLen ∧
      Memory.read doneState.obuf 3 = some 0x3D) ∧
    (7 < doneState.params.maxOutLen ∧ ¬ (doneState.phase = .done ∧ 7 < doneState.outLen)) ∧
    (4 < doneState.params.maxOutLen ∧ ¬ (doneState.phase = .done ∧ 4 < doneState.outLen)) ∧
    doneState.params.maxInLen ≤ 4 ∧ doneState.params.maxOutLen ≤ 8 := by decide

theorem witness_IllFormedHostActionsAreRefused : (HostAction.writeInLen 16).wf doneState.params = false := by decide

theorem witness_BusyRefusesIssueAndInputChanges : (busyOn 0b01 [0x41]).phase = .busy := by decide

theorem witness_ReadsWhileBusy : (busyOn 0b00 [0x4D]).Inv ∧ (busyOn 0b00 [0x4D]).phase = .busy :=
  ⟨witness_busy_state_inv, rfl⟩

/-- A read of a result byte in phase DONE; an engine's turn while a write of `CMD` is pending; and an issue. -/
theorem witness_ResultLastsUntilIssueOrReset :
    (∃ t, (about (.read (.obuf 3)) doneState).Inv ∧ (about (.read (.obuf 3)) doneState).ended ∧
      step (about (.read (.obuf 3)) doneState) = .next t ∧ (HostAction.read (.obuf 3)).endsResult = false) ∧
    (let s := { about (.writeCmd [0x00]) doneState with turns := [.engine] }
     ∃ t, s.Inv ∧ s.ended ∧ step s = .next t ∧ s.mover ≠ .host) ∧
    (∃ t, issue 0b00 doneState = .ok t) ∧ (busyOn 0b00 [0x4D]).phase = .busy :=
  ⟨⟨_, { witness_done_state_inv with }, .inl rfl, rfl, rfl⟩,
    ⟨_, { witness_done_state_inv with }, .inl rfl, rfl, by decide⟩, ⟨_, rfl⟩, rfl⟩

/-- RUN on as many bytes as the buffer holds, with turns fixed for both agents, and on none. -/
theorem witness_RunComputesOnTheLoadedBytes :
    (let s := { doneState with
       script := runActions .decodeUrl [0x41, 0x51, 0x3D, 0x3D], turns := [.engine, .host, .host, .engine] }
     s.phase ≠ .busy ∧ ([0x41, 0x51, 0x3D, 0x3D] : List Byte).length ≤ s.params.maxInLen ∧
       s.script = runActions .decodeUrl [0x41, 0x51, 0x3D, 0x3D] ++ []) ∧
    (let s := { doneState with script := runActions .encodeStd [] }
     s.phase ≠ .busy ∧ ([] : List Byte).length ≤ s.params.maxInLen ∧ s.script = runActions .encodeStd [] ++ []) := by
  decide

/-- The end of ENCODE.STD on four bytes: the result `"AAAAAA=="` is longer than `IBUF`. -/
def longResult : State :=
  { withInput [0x00, 0x00, 0x00, 0x00] with
    phase := .done, estage := .tail, pos := 4, wptr := 8, outLen := 8, ecnt := 1,
    obuf := cells 0 [0x41, 0x41, 0x41, 0x41, 0x41, 0x41, 0x3D, 0x3D] }

/-- A result that fits `IBUF`, one that does not, and a phase other than DONE. -/
theorem witness_RecodeRunsOnTheLastResult :
    (let s := { about (.recode (encode .decodeStd)) doneState with turns := [.engine, .host] }
     s.Inv ∧ s.phase = .done ∧ s.outLen ≤ s.params.maxInLen ∧ s.script = .recode (encode .decodeStd) :: []) ∧
    (let s := about (.recode (encode .decodeStd)) longResult
     s.Inv ∧ s.phase = .done ∧ s.params.maxInLen < s.outLen ∧ s.script = .recode (encode .decodeStd) :: []) ∧
    State.reset.phase ≠ .done :=
  ⟨⟨{ witness_done_state_inv with }, by decide, by decide, by decide⟩,
    ⟨{ params := by decide, ibufWf := by decide, ibufWithin := by decide, obufWf := by decide, obufWithin := by decide,
       inLenWidth := by decide, posRange := by decide, wptrRange := by decide, written := by decide,
       ecntRange := by decide, ebufRange := by decide, daccRange := by decide, status := ⟨rfl, rfl, rfl⟩,
       busy := fun h => absurd h (by decide) }, by decide, by decide, by decide⟩, by decide⟩

theorem witness_ResetMeetsTheInvariant : Params.wf { maxInLen := 1 } = true := by decide

/-- A step of the engine and a step of the host. -/
theorem witness_StepKeepsTheInvariant :
    (∃ t, (busyOn 0b00 [0x4D]).Inv ∧ step (busyOn 0b00 [0x4D]) = .next t) ∧
    ∃ t, (about (.writeIbuf 3 0xFF) doneState).Inv ∧ step (about (.writeIbuf 3 0xFF) doneState) = .next t :=
  ⟨⟨_, witness_busy_state_inv, rfl⟩, ⟨_, { witness_done_state_inv with }, rfl⟩⟩

theorem witness_StepNeverFaults : (busyOn 0b00 [0x4D]).Inv := witness_busy_state_inv

theorem witness_StepKeepsTheParameters : ∃ t, step (about .assertReset doneState) = .next t := ⟨_, rfl⟩

/-- Two writes in either order. -/
theorem witness_BuffersThatReadAlikeAreEqual :
    Memory.wf (Memory.write (Memory.write [] 0 0x4D) 3 0x61) ∧ Memory.wf (Memory.write (Memory.write [] 3 0x61) 0 0x4D) ∧
    ∀ a, Memory.read (Memory.write (Memory.write [] 0 0x4D) 3 0x61) a =
      Memory.read (Memory.write (Memory.write [] 3 0x61) 0 0x4D) a := ⟨by decide, by decide, fun _ => rfl⟩

/-- Two instances, one BUSY and one in DONE. -/
theorem witness_InstancesAreIndependent :
    ∃ Q R, Platform.stepAt 0 ⟨[busyOn 0b00 [0x4D], doneState]⟩ = some (.next Q) ∧ (1 : Nat) ≠ 0 ∧
      Q.stepAt 1 = some (.next R) := ⟨_, _, rfl, by decide, rfl⟩

/-- One instance of the least capacity; and two that differ in `MAX_IN_LEN`, the second of which steps. -/
theorem witness_PlatformKeepsItsForm :
    (1 ≤ ([{ maxInLen := 1 }] : List Params).length ∧ ∀ p ∈ ([{ maxInLen := 1 }] : List Params), p.wf = true) ∧
    (∃ Q, (Platform.resetFor [{ maxInLen := 1 }, small]).wf = true ∧
      (Platform.resetFor [{ maxInLen := 1 }, small]).stepAt 1 = some (.next Q)) ∧
    ([{ maxInLen := 1 }, small] : List Params)[0]? = some { maxInLen := 1 } ∧
    ([{ maxInLen := 1 }, small] : List Params)[1]? = some small :=
  ⟨by decide, ⟨_, by decide, rfl⟩, by decide, by decide⟩

end Sys2Proof.Tests
end

section
/-! SUPPORT. The fields of the `STATUS` word (10_state.md R24 to R26, 30_encoding.md R62, R63). -/

namespace Sys2Proof.Machine

/-- Distinct phases have distinct codes (R24). -/
theorem Phase.code_inj {p q : Phase} : p.code = q.code ↔ p = q := by
  constructor
  · cases p <;> cases q <;> decide
  · exact congrArg Phase.code

/-- Distinct reasons have distinct codes (R62). -/
theorem Reason.code_inj {p q : Reason} : p.code = q.code ↔ p = q := by
  constructor
  · cases p <;> cases q <;> decide
  · exact congrArg Reason.code

/-- R63: every reason has one of the six codes that are not reserved. -/
theorem Reason.code_toNat_lt (r : Reason) : r.code.toNat < 6 := by
  cases r <;> decide

/-- A reserved code is the code of no reason (R63). -/
theorem Reason.code_ne_of_reserved (r : Reason) {c : BitVec 3} (hc : 6 ≤ c.toNat) : r.code ≠ c := by
  rintro rfl
  exact absurd r.code_toNat_lt (Nat.not_lt.mpr hc)

/-- `STATUS` as a number: REASON from bit 2, PHASE from bit 0. -/
theorem statusWord_toNat (s : State) : (statusWord s).toNat = s.reason.code.toNat * 4 + s.phase.code.toNat := by
  refine (toNat_cat (0#3 ++ s.reason.code) s.phase.code).trans ?_
  rw [toNat_cat]
  simp

@[simp] theorem statusWord_phase (s : State) : (statusWord s).extractLsb 1 0 = s.phase.code := by
  apply BitVec.eq_of_toNat_eq
  rw [toNat_field, statusWord_toNat]
  have := s.phase.code.isLt
  omega

@[simp] theorem statusWord_reason (s : State) : (statusWord s).extractLsb 4 2 = s.reason.code := by
  apply BitVec.eq_of_toNat_eq
  rw [toNat_field, statusWord_toNat]
  have := s.phase.code.isLt
  have := s.reason.code.isLt
  omega

@[simp] theorem statusWord_reserved (s : State) : (statusWord s).extractLsb 7 5 = 0#3 := by
  apply BitVec.eq_of_toNat_eq
  rw [toNat_field, statusWord_toNat]
  have := s.phase.code.isLt
  have := s.reason.code.isLt
  change _ = 0
  omega

/-- Settles O39: each field of the word is the code of its register, and the codes are injective. -/
theorem statusWordLayout : Obligations.StatusWordLayout := by
  intro s phase reason
  have hphase : phase = s.phase.code := statusWord_phase s
  have hreason : reason = s.reason.code := statusWord_reason s
  rw [hphase, hreason]
  exact ⟨⟨Phase.code_inj (q := .idle), Phase.code_inj (q := .busy), Phase.code_inj (q := .done),
      Phase.code_inj (q := .error)⟩,
    ⟨Reason.code_inj (q := .none), Reason.code_inj (q := .emptyInput), Reason.code_inj (q := .badLength),
      Reason.code_inj (q := .disallowedChar), Reason.code_inj (q := .unrecognizedChar),
      Reason.code_inj (q := .invalidShift)⟩,
    statusWord_reserved s, s.reason.code_ne_of_reserved (by decide), s.reason.code_ne_of_reserved (by decide)⟩

end Sys2Proof.Machine
end

section
/-! SUPPORT. The constant tables by their ranges: the alphabets (30_encoding.md R73) and `REV` (R75), each the inverse of
the other (R74). -/

namespace Sys2Proof.Machine

/-! FWD on the three ranges of indices where the alphabets agree. -/

theorem fwd_toNat_upper (var : Variant) {i : Sextet} (h : i.toNat ≤ 25) : (fwd var i).toNat = 0x41 + i.toNat := by
  revert i
  cases var <;> decide

theorem fwd_toNat_lower (var : Variant) {i : Sextet} (h : 26 ≤ i.toNat) (h' : i.toNat ≤ 51) :
    (fwd var i).toNat = 0x47 + i.toNat := by
  revert i
  cases var <;> decide

theorem fwd_toNat_digit (var : Variant) {i : Sextet} (h : 52 ≤ i.toNat) (h' : i.toNat ≤ 61) :
    (fwd var i).toNat = i.toNat - 4 := by
  revert i
  cases var <;> decide

/-- The five ranges of R73: three where the alphabets agree, and the two indices where they differ. -/
theorem sextet_ranges (i : Sextet) :
    i.toNat ≤ 25 ∨ (26 ≤ i.toNat ∧ i.toNat ≤ 51) ∨ (52 ≤ i.toNat ∧ i.toNat ≤ 61) ∨ i = 62#6 ∨ i = 63#6 := by
  bv_omega

theorem exists_sextet {n : Nat} (h : n < 64) : ∃ i : Sextet, i.toNat = n :=
  ⟨BitVec.ofNat 6 n, Nat.mod_eq_of_lt h⟩

/-! REV on the three ranges of characters. -/

theorem rev_upper {c : Byte} (h : 0x41 ≤ c.toNat) (h' : c.toNat ≤ 0x5A) : rev c = revValid (c.toNat - 0x41) := by
  simp (disch := omega) only [rev, if_neg, if_pos]

theorem rev_lower {c : Byte} (h : 0x61 ≤ c.toNat) (h' : c.toNat ≤ 0x7A) : rev c = revValid (c.toNat - 0x47) := by
  simp (disch := omega) only [rev, if_neg, if_pos]

theorem rev_digit {c : Byte} (h : 0x30 ≤ c.toNat) (h' : c.toNat ≤ 0x39) : rev c = revValid (c.toNat + 4) := by
  simp (disch := omega) only [rev, if_neg, if_pos]

/-- `REV` at entry `i` of either alphabet holds the value `i`. -/
theorem rev_fwd (var : Variant) (i : Sextet) : rev (fwd var i) = revValid i.toNat := by
  obtain h | ⟨h, h'⟩ | ⟨h, h'⟩ | rfl | rfl := sextet_ranges i
  · have hc := fwd_toNat_upper var h
    rw [rev_upper (by omega) (by omega), hc, Nat.add_sub_cancel_left]
  · have hc := fwd_toNat_lower var h h'
    rw [rev_lower (by omega) (by omega), hc, Nat.add_sub_cancel_left]
  · have hc := fwd_toNat_digit var h h'
    rw [rev_digit (by omega) (by omega), hc, Nat.sub_add_cancel (by omega)]
  · cases var <;> rfl
  · cases var <;> rfl

@[simp] theorem revIsValid_fwd (var : Variant) (i : Sextet) : revIsValid (fwd var i) = true := by
  rw [revIsValid, rev_fwd]
  revert i
  decide

@[simp] theorem revValue_fwd (var : Variant) (i : Sextet) : revValue (fwd var i) = i := by
  rw [revValue, rev_fwd]
  revert i
  decide

/-- Every character that `REV` does not send to 0 is an entry of one of the alphabets. -/
theorem rev_eq_zero_or_exists_fwd (c : Byte) : rev c = 0#7 ∨ ∃ var i, fwd var i = c := by
  by_cases hupper : 0x41 ≤ c.toNat ∧ c.toNat ≤ 0x5A
  · obtain ⟨i, hi⟩ := exists_sextet (n := c.toNat - 0x41) (by omega)
    refine .inr ⟨.standard, i, BitVec.eq_of_toNat_eq ?_⟩
    rw [fwd_toNat_upper _ (by omega)]
    omega
  by_cases hlower : 0x61 ≤ c.toNat ∧ c.toNat ≤ 0x7A
  · obtain ⟨i, hi⟩ := exists_sextet (n := c.toNat - 0x47) (by omega)
    refine .inr ⟨.standard, i, BitVec.eq_of_toNat_eq ?_⟩
    rw [fwd_toNat_lower _ (by omega) (by omega)]
    omega
  by_cases hdigit : 0x30 ≤ c.toNat ∧ c.toNat ≤ 0x39
  · obtain ⟨i, hi⟩ := exists_sextet (n := c.toNat + 4) (by omega)
    refine .inr ⟨.standard, i, BitVec.eq_of_toNat_eq ?_⟩
    rw [fwd_toNat_digit _ (by omega) (by omega)]
    omega
  rw [rev]
  split_ifs with hplus hminus hslash hunder
  · exact .inr ⟨.standard, 62, (BitVec.eq_of_toNat_eq hplus).symm⟩
  · exact .inr ⟨.urlSafe, 62, (BitVec.eq_of_toNat_eq hminus).symm⟩
  · exact .inr ⟨.standard, 63, (BitVec.eq_of_toNat_eq hslash).symm⟩
  · exact .inr ⟨.urlSafe, 63, (BitVec.eq_of_toNat_eq hunder).symm⟩
  · exact .inl rfl

theorem revIsValid_of_rev_eq_zero {c : Byte} (h : rev c = 0#7) : revIsValid c = false := by
  rw [revIsValid, h]
  rfl

/-- R74: the valid entries are those of the two alphabets. -/
theorem revIsValid_iff (c : Byte) : revIsValid c = true ↔ ∃ var i, fwd var i = c := by
  constructor
  · intro hv
    refine (rev_eq_zero_or_exists_fwd c).resolve_left fun h0 => ?_
    rw [revIsValid_of_rev_eq_zero h0] at hv
    contradiction
  · rintro ⟨var, i, rfl⟩
    exact revIsValid_fwd var i

/-- R76: an invalid entry is 0. -/
theorem rev_eq_zero_of_invalid {c : Byte} (h : revIsValid c = false) : rev c = 0#7 := by
  refine (rev_eq_zero_or_exists_fwd c).resolve_right fun hc => ?_
  rw [(revIsValid_iff c).mpr hc] at h
  contradiction

/-- R74: an entry is valid with value `i` exactly at entry `i` of an alphabet. -/
theorem revValue_eq_iff (c : Byte) (i : Sextet) : (revIsValid c = true ∧ revValue c = i) ↔ ∃ var, fwd var i = c := by
  constructor
  · rintro ⟨hv, rfl⟩
    obtain ⟨var, j, rfl⟩ := (revIsValid_iff c).mp hv
    exact ⟨var, by rw [revValue_fwd]⟩
  · rintro ⟨var, rfl⟩
    exact ⟨revIsValid_fwd var i, revValue_fwd var i⟩

/-- Settles O35: `REV` undoes `FWD` at every entry of both alphabets, and every other entry of `REV` is 0. -/
theorem reverseTableInvertsBothAlphabets : Obligations.ReverseTableInvertsBothAlphabets := by
  refine ⟨fun c i => (revValue_eq_iff c i).trans ⟨?_, ?_⟩, fun _ => rev_eq_zero_of_invalid⟩
  · rintro ⟨_ | _, h⟩
    · exact .inl h
    · exact .inr h
  · rintro (h | h)
    · exact ⟨_, h⟩
    · exact ⟨_, h⟩

end Sys2Proof.Machine
end

section
/-! SUPPORT. The host's turn (41_engine.md R87) and the bare write of `CMD` (R88, 70_reset_and_hazards.md R142, R145). -/

namespace Sys2Proof.Machine

/-- Where the host moves, the step is its next action, with that action and that turn taken away. -/
theorem step_host {s : State} {a : HostAction} {rest : List HostAction} (hm : s.mover = .host)
    (hs : s.script = a :: rest) : step s = hostAct a { s with script := rest, turns := s.turns.tail } := by
  rw [step, takeTurn, hm]
  simp only [hostTurn, popTurn_script, hs]
  rfl

theorem commandWord_statement (i : Instr) : Laws.CommandWord.Statement i := by
  cases i with
  | encodeStd => exact Laws.CommandWord.encodeStd
  | decodeStd => exact Laws.CommandWord.decodeStd
  | encodeUrl => exact Laws.CommandWord.encodeUrl
  | decodeUrl => exact Laws.CommandWord.decodeUrl

@[simp] theorem decode_encode (i : Instr) : decode (encode i) = .ok i := by
  obtain ⟨-, -, -, h⟩ := commandWord_statement i
  exact h

/-- A write of a command's bytes to `CMD` issues its word. -/
theorem hostAct_writeCmd_encode (i : Instr) (s : State) :
    hostAct (.writeCmd (encode i)) s = ofHost (issue (encodeWord i) s) := by
  simp only [hostAct, issueBytes, decode_encode]

/-- R142, R145: an issue while BUSY or with an oversized input is refused. -/
theorem exists_issue_eq_error {s : State} (w : CmdWord) (h : s.phase = .busy ∨ s.params.maxInLen < s.inLen) :
    ∃ r, issue w s = .error r := by
  cases hi : issue w s with
  | error r => exact ⟨r, rfl⟩
  | ok t =>
    obtain ⟨hb, hn, -⟩ := issue_ok_iff.mp hi
    exact (h.elim hb (Nat.not_lt.mpr hn)).elim

/-- Settles O5: the step is the issue of the command's word, which either leaves the state R88 lists or is refused. -/
theorem writingCmdIssuesTheCommand : Obligations.WritingCmdIssuesTheCommand := by
  intro s i rest hm hs
  have hstep : step s = ofHost (issue (encodeWord i) { s with script := rest, turns := s.turns.tail }) :=
    (step_host hm hs).trans (hostAct_writeCmd_encode i _)
  have hrefused (h : s.phase = .busy ∨ s.params.maxInLen < s.inLen) : ∃ r, step s = .refused r := by
    obtain ⟨r, hr⟩ := exists_issue_eq_error (s := { s with script := rest, turns := s.turns.tail }) (encodeWord i) h
    exact ⟨r, hstep.trans (congrArg ofHost hr)⟩
  refine ⟨fun hb hn => ?_, fun hb => hrefused (.inl hb), fun hn => hrefused (.inr hn)⟩
  rw [hstep, issue_eq_ok]
  exacts [rfl, hb, hn]

end Sys2Proof.Machine
end

section
/-! SUPPORT. A command's meaning from its engine run, and the encode commands (42_encoder.md R98, R100, R101). -/

namespace Sys2Proof.Machine

/-! The meaning of a command. -/

/-- Every command is the run of its own word (30_encoding.md R58). -/
theorem exec_eq_runCommand (i : Instr) (s : State) : exec i s = runCommand (encodeWord i) s := by
  cases i <;> rfl

/-- Bit 0 of a command's word is `OP` (R56). -/
@[simp] theorem encodeWord_op (i : Instr) : (encodeWord i).getLsbD 0 = i.isDecode := by
  obtain ⟨-, h, -, -⟩ := commandWord_statement i
  exact h

/-- Bit 1 of a command's word names its variant (R57). -/
@[simp] theorem wordVariant_encodeWord (i : Instr) : wordVariant (encodeWord i) = i.variant := by
  obtain ⟨-, -, h, -⟩ := commandWord_statement i
  exact h

/-- A command that may run answers the state its engine run from the issue ends in (41_engine.md R93, R94). -/
theorem exec_eq_next {i : Instr} {s t : State} (hb : s.phase ≠ .busy) (hn : s.inLen ≤ s.params.maxInLen)
    (h : runEngine (s.inLen + 3) (issued (encodeWord i) s) = .ok t) : exec i s = .next t :=
  (exec_eq_runCommand i s).trans (runCommand_eq hb hn h)

/-- A command on no byte ends with EMPTY_INPUT in the state its issue left, with nothing read or written. -/
theorem exec_empty_input {s : State} (i : Instr) (hb : s.phase ≠ .busy) (h0 : s.inLen = 0) :
    exec i s = .next (statusError .emptyInput 0x00 (issued (encodeWord i) s)) :=
  exec_eq_next hb (h0 ▸ Nat.zero_le _) (empty_command_run h0 _)

/-! The value an encode shows. -/

theorem enc_of_empty (var : Variant) {bs : List Byte} (h : bs.length = 0) :
    enc var bs = .error ⟨.emptyInput, 0x00⟩ := if_pos h

theorem enc_of_nonempty (var : Variant) {bs : List Byte} (h : bs.length ≠ 0) :
    enc var bs = .ok (encText var bs) := if_neg h

/-- A DONE state whose `OBUF` holds `out` from index 0 on shows `out`. -/
theorem shows_ok_of_written {t : State} {m : Memory} {out : List Byte} (hp : t.phase = .done) (hr : t.reason = .none)
    (he : t.errByte = 0x00) (hl : t.outLen = out.length) (ho : t.obuf = Memory.writeAll m 0 out) : Shows t (.ok out) :=
  ⟨hp, hr, he, hl, result_of_written hp hl ho⟩

/-- Settles O8: on no byte the first engine step ends the command; otherwise the run of the engine, by induction over the
input left (`encode_scan_run`), writes `encText` of the input from `OBUF[0]` on. -/
theorem encodeCommandsComputeEnc : Obligations.EncodeCommandsComputeEnc := by
  intro i s hop hb hn
  by_cases h0 : s.inLen = 0
  · refine ⟨_, exec_empty_input i hb h0, ?_, iff_of_true rfl h0, fun _ => ⟨rfl, rfl, rfl⟩, rfl, rfl, rfl, rfl⟩
    rw [enc_of_empty i.variant ((input_length s).trans h0)]
    exact ⟨rfl, rfl, rfl, rfl⟩
  · obtain ⟨t, hrun, hp, hr, he, hwptr, hout, -, hobuf, hframe⟩ :=
      encode_command_run ((encodeWord_op i).trans hop) h0 hn
    rw [wordVariant_encodeWord] at hwptr hobuf
    have hshows : Shows t (enc i.variant s.input) := by
      rw [enc_of_nonempty i.variant (by rwa [input_length])]
      exact shows_ok_of_written hp hr he (hout.trans hwptr) hobuf
    have hnoError : t.phase ≠ .error := by simp [hp]
    exact ⟨t, exec_eq_next hb hn hrun, hshows, iff_of_false hnoError h0, fun h => absurd h hnoError, he, hframe.cmd,
      hframe.ibuf, hframe.inLen⟩

end Sys2Proof.Machine
end

section
/-! SUPPORT. The host's writes while a command is BUSY (70_reset_and_hazards.md R142, R143). -/

namespace Sys2Proof.Machine

/-- A host action that answers no next state is refused (R140): it has no third outcome. -/
theorem exists_ofHost_eq_refused {x : Except Refusal State} (h : ∀ t, x ≠ .ok t) : ∃ r, ofHost x = .refused r := by
  cases x with
  | error r => exact ⟨r, rfl⟩
  | ok t => exact absurd rfl (h t)

/-- R142, for a bare write of `CMD`: bytes that are no command word are refused as such, and a command's word is an
issue while BUSY. -/
theorem issueBytes_ne_ok_of_busy {s : State} (hb : s.phase = .busy) (word : List Byte) (t : State) :
    issueBytes word s ≠ .ok t := by
  unfold issueBytes
  cases decode word with
  | error e => nofun
  | ok i => exact fun h => (issue_ok_iff.mp h).1 hb

/-- A command whose issue is refused is refused whole. -/
theorem exec_eq_refused {i : Instr} {s : State} {r : Refusal} (h : issue (encodeWord i) s = .error r) :
    exec i s = .refused r := by
  rw [exec_eq_runCommand, runCommand, h]

/-- R142, for a command run whole: it is refused at its issue, before any engine step. -/
theorem exists_runBytes_eq_refused_of_busy {s : State} (hb : s.phase = .busy) (word : List Byte) :
    ∃ r, runBytes word s = .refused r := by
  unfold runBytes
  cases decode word with
  | error e => exact ⟨.notACommandWord, rfl⟩
  | ok i =>
    obtain ⟨r, hr⟩ := exists_issue_eq_error (encodeWord i) (.inl hb)
    exact ⟨r, exec_eq_refused hr⟩

/-- Settles O45: a write of `CMD` is refused at its issue, and the writes of `IBUF` and `IN_LEN` that answer a next state
are those made outside BUSY. -/
theorem busyRefusesIssueAndInputChanges : Obligations.BusyRefusesIssueAndInputChanges := by
  intro s hb
  refine ⟨fun word => ?writeCmd, fun word => ?command, fun i v => ?writeIbuf, fun n => ?writeInLen⟩
  case writeCmd => exact exists_ofHost_eq_refused (issueBytes_ne_ok_of_busy hb word)
  case command => exact exists_runBytes_eq_refused_of_busy hb word
  case writeIbuf => exact exists_ofHost_eq_refused fun _ h => (writeIbuf_ok_iff.mp h).2.1 hb
  case writeInLen => exact exists_ofHost_eq_refused fun _ h => (writeInLen_ok_iff.mp h).2.1 hb

end Sys2Proof.Machine
end

section
/-! SUPPORT. The engine while a command is BUSY: its clause of the invariant gives it a step, every step brings the end
nearer, and what the steps of a run keep (41_engine.md R89, R94; 42_encoder.md R103; 43_decoder.md R112). -/

namespace Sys2Proof.Machine

/-! The engine's own invariant, by stage. -/

theorem engineInv_check {s : State} (hs : s.estage = .check) :
    EngineInv s ↔ s.pos = 0 ∧ s.wptr = 0 ∧ s.ecnt = 0 ∧ s.dshift = 0 := by
  simp only [EngineInv, hs]

theorem engineInv_scan_encode {s : State} (hs : s.estage = .scan) (hd : s.isDecode = false) :
    EngineInv s ↔ s.ecnt.toNat = s.pos % 3 ∧ s.wptr = 4 * (s.pos / 3) := by
  simp only [EngineInv, hs, hd]

theorem engineInv_scan_decode {s : State} (hs : s.estage = .scan) (hd : s.isDecode = true) :
    EngineInv s ↔ s.dshift.toNat = s.pos % 4 ∧ s.wptr = 3 * (s.pos / 4) := by
  simp only [EngineInv, hs, hd]

theorem engineInv_tail_encode {s : State} (hs : s.estage = .tail) (hd : s.isDecode = false) :
    EngineInv s ↔ s.pos = s.inLen ∧ s.ecnt.toNat = s.pos % 3 ∧ s.wptr = 4 * (s.pos / 3) := by
  simp only [EngineInv, hs, hd]

theorem engineInv_tail_decode {s : State} (hs : s.estage = .tail) (hd : s.isDecode = true) :
    EngineInv s ↔ ∃ m, m ≤ s.pos ∧ s.pos ≤ m + 1 ∧ s.dshift.toNat = m % 4 ∧ s.wptr = 3 * (m / 4) := by
  simp only [EngineInv, hs, hd]

/-- The clause of the invariant for a BUSY command, which is all that the engine's progress rests on. -/
def BusyInv (s : State) : Prop := s.inLen ≤ s.params.maxInLen ∧ s.pos ≤ s.inLen ∧ EngineInv s

/-- An issue establishes the clause. -/
theorem busyInv_issued (w : CmdWord) {s : State} (hn : s.inLen ≤ s.params.maxInLen) : BusyInv (issued w s) :=
  ⟨hn, Nat.zero_le _, (engineInv_check rfl).mpr ⟨rfl, rfl, rfl, rfl⟩⟩

/-- The engine's output so far fits `OBUF` (R106 and R97, at every step). -/
theorem BusyInv.wptr_le {s : State} (h : BusyInv s) : s.wptr ≤ s.params.maxOutLen := by
  obtain ⟨hn, hp, he⟩ := h
  have hmax : s.params.maxOutLen = 4 * ((s.params.maxInLen + 2) / 3) := rfl
  cases hs : s.estage <;> cases hd : s.isDecode
  case check.false | check.true =>
    have := (engineInv_check hs).mp he
    omega
  case scan.false =>
    have := (engineInv_scan_encode hs hd).mp he
    omega
  case scan.true =>
    have := (engineInv_scan_decode hs hd).mp he
    omega
  case tail.false =>
    have := (engineInv_tail_encode hs hd).mp he
    omega
  case tail.true =>
    obtain ⟨m, hm, -, -, hw⟩ := (engineInv_tail_decode hs hd).mp he
    omega

/-! The engine has a step. -/

theorem encTailBytes_length_le (var : Variant) (s : State) :
    (encTailBytes var s).length ≤ 4 * ((s.ecnt.toNat + 2) / 3) := by
  unfold encTailBytes
  split
  · next h => have := padding_length_le var 2; simp [h]; omega
  · split
    · next h => have := padding_length_le var 1; simp [h]; omega
    · simp

theorem exists_encStep {s : State} (h : BusyInv s) (hd : s.isDecode = false) (var : Variant) :
    ∃ t, encStep var s = .ok t := by
  obtain ⟨hn, hp, he⟩ := h
  have hmax : s.params.maxOutLen = 4 * ((s.params.maxInLen + 2) / 3) := rfl
  cases hs : s.estage with
  | check => simp only [encStep, hs, encCheck]; split <;> exact ⟨_, rfl⟩
  | scan =>
    obtain ⟨hc, hw⟩ := (engineInv_scan_encode hs hd).mp he
    rw [encStep_scan hs]
    by_cases hpos : s.pos < s.inLen
    · by_cases hc2 : s.ecnt.toNat < 2
      · exact ⟨_, encScan_hold var hpos hn hc2⟩
      · exact ⟨_, encScan_group var hpos hn hc2 (by omega)⟩
    · exact ⟨_, if_neg hpos⟩
  | tail =>
    obtain ⟨hpos, hc, hw⟩ := (engineInv_tail_encode hs hd).mp he
    have hl := encTailBytes_length_le var s
    exact ⟨_, by simp only [encStep, hs, encTail]; exact emitAndFinish_eq_ok (by omega)⟩

theorem exists_decStep {s : State} (h : BusyInv s) (hd : s.isDecode = true) (var : Variant) :
    ∃ t, decStep var s = .ok t := by
  obtain ⟨hn, hp, he⟩ := h
  have hmax : s.params.maxOutLen = 4 * ((s.params.maxInLen + 2) / 3) := rfl
  cases hs : s.estage with
  | check =>
    simp only [decStep, hs, decCheck]
    split
    · exact ⟨_, rfl⟩
    · split <;> exact ⟨_, rfl⟩
  | scan =>
    obtain ⟨hc, hw⟩ := (engineInv_scan_decode hs hd).mp he
    rw [decStep_scan hs]
    by_cases hpos : s.pos < s.inLen
    · rw [decScan_take var hpos hn, decTake]
      split
      · exact ⟨_, rfl⟩
      · exact ⟨_, rfl⟩
      · exact ⟨_, rfl⟩
      · next v _ =>
        by_cases h3 : s.dshift = 3#2
        · have hr : s.pos % 4 = 3 := by rw [← hc, h3]; rfl
          exact ⟨_, accumulate_flush (s := { s with pos := s.pos + 1 }) v h3 (by simp only; omega)⟩
        · exact ⟨_, accumulate_keep (s := { s with pos := s.pos + 1 }) v h3⟩
    · exact ⟨_, if_neg hpos⟩
  | tail =>
    obtain ⟨m, hm, -, hc, hw⟩ := (engineInv_tail_decode hs hd).mp he
    obtain ⟨t, -, ht, -⟩ := decTail_run (s := s) (by omega)
    exact ⟨t, (decStep_tail hs var).trans ht⟩

/-- R50: while BUSY the engine has a step, and it forms no index out of range. -/
theorem exists_engineStep {s : State} (hb : s.phase = .busy) (h : BusyInv s) : ∃ t, engineStep s = .ok t := by
  cases hd : s.isDecode
  · rw [engineStep_encode hb hd]
    exact exists_encStep h hd _
  · rw [engineStep_decode hb hd]
    exact exists_decStep h hd _

/-! Every move keeps the clause and brings the end nearer. -/

theorem EngineMove.busy_or_ended {s t : State} (hb : s.phase = .busy) (h : EngineMove s t) :
    t.phase = .busy ∨ t.ended := by
  cases h
  case empty | badLength | disallowed | invalid | badShift => exact .inr (.inr rfl)
  case finish => exact .inr (.inl rfl)
  all_goals exact .inl hb

theorem EngineMove.busyInv {s t : State} (h : BusyInv s) (hm : EngineMove s t) (ht : t.phase = .busy) : BusyInv t := by
  obtain ⟨hn, hp, he⟩ := h
  cases hm with
  | empty | badLength | disallowed | invalid | badShift | finish => contradiction
  | toScan hs h0 hl =>
    obtain ⟨hpos, hw, hc, hk⟩ := (engineInv_check hs).mp he
    refine ⟨hn, hp, ?_⟩
    cases hd : s.isDecode
    · exact (engineInv_scan_encode (by rfl) (by exact hd)).mpr (by simp [hpos, hw, hc])
    · exact (engineInv_scan_decode (by rfl) (by exact hd)).mpr (by simp [hpos, hw, hk])
  | hold hs hd hpos hm hc2 =>
    obtain ⟨hc, hw⟩ := (engineInv_scan_encode hs hd).mp he
    refine ⟨hn, hpos, (engineInv_scan_encode (by exact hs) (by exact hd)).mpr ⟨?_, ?_⟩⟩
    · show (s.ecnt + 1).toNat = (s.pos + 1) % 3
      rw [BitVec.toNat_add]
      simp; omega
    · show s.wptr = 4 * ((s.pos + 1) / 3)
      omega
  | group hs hd hpos hm hc2 hr =>
    obtain ⟨hc, hw⟩ := (engineInv_scan_encode hs hd).mp he
    refine ⟨hn, hpos, (engineInv_scan_encode (by exact hs) (by exact hd)).mpr ⟨?_, ?_⟩⟩
    · show 0 = (s.pos + 1) % 3
      omega
    · show s.wptr + 4 = 4 * ((s.pos + 1) / 3)
      omega
  | pad hs hd hpos hm hcl =>
    obtain ⟨hc, hw⟩ := (engineInv_scan_decode hs hd).mp he
    exact ⟨hn, hpos,
      (engineInv_tail_decode (by rfl) (by exact hd)).mpr ⟨s.pos, Nat.le_succ _, Nat.le_refl _, hc, hw⟩⟩
  | keep v hs hd hpos hm hcl h3 =>
    obtain ⟨hc, hw⟩ := (engineInv_scan_decode hs hd).mp he
    have h3' : s.dshift.toNat ≠ 3 := fun h => h3 (BitVec.eq_of_toNat_eq h)
    refine ⟨hn, hpos, (engineInv_scan_decode (by exact hs) (by exact hd)).mpr ⟨?_, ?_⟩⟩
    · show (s.dshift + 1).toNat = (s.pos + 1) % 4
      rw [BitVec.toNat_add]
      simp; omega
    · show s.wptr = 3 * ((s.pos + 1) / 4)
      omega
  | fill v hs hd hpos hm hcl h3 hr =>
    obtain ⟨hc, hw⟩ := (engineInv_scan_decode hs hd).mp he
    have h3' : s.dshift.toNat = 3 := congrArg BitVec.toNat h3
    refine ⟨hn, hpos, (engineInv_scan_decode (by exact hs) (by exact hd)).mpr ⟨?_, ?_⟩⟩
    · show 0 = (s.pos + 1) % 4
      omega
    · show s.wptr + 3 = 3 * ((s.pos + 1) / 4)
      omega
  | exhausted hs hpos =>
    refine ⟨hn, hp, ?_⟩
    cases hd : s.isDecode
    · obtain ⟨hc, hw⟩ := (engineInv_scan_encode hs hd).mp he
      have hend : s.pos = s.inLen := Nat.le_antisymm hp (Nat.le_of_not_lt hpos)
      exact (engineInv_tail_encode (by rfl) (by exact hd)).mpr ⟨hend, hc, hw⟩
    · obtain ⟨hc, hw⟩ := (engineInv_scan_decode hs hd).mp he
      exact (engineInv_tail_decode (by rfl) (by exact hd)).mpr ⟨s.pos, Nat.le_refl _, Nat.le_succ _, hc, hw⟩

/-- The most engine steps a command has still to take, by stage (R94). -/
def remaining (s : State) : Nat :=
  if s.phase = .busy then
    match s.estage with
    | .check => s.inLen + 3
    | .scan => s.inLen - s.pos + 2
    | .tail => 1
  else 0

theorem remaining_of_not_busy {s : State} (h : s.phase ≠ .busy) : remaining s = 0 := if_neg h

theorem remaining_check {s : State} (hb : s.phase = .busy) (hs : s.estage = .check) : remaining s = s.inLen + 3 := by
  simp only [remaining, hb, hs, if_true]

theorem remaining_scan {s : State} (hb : s.phase = .busy) (hs : s.estage = .scan) :
    remaining s = s.inLen - s.pos + 2 := by
  simp only [remaining, hb, hs, if_true]

theorem remaining_tail {s : State} (hb : s.phase = .busy) (hs : s.estage = .tail) : remaining s = 1 := by
  simp only [remaining, hb, hs, if_true]

theorem remaining_le (s : State) : remaining s ≤ s.inLen + 3 := by
  unfold remaining
  split
  · split <;> omega
  · omega

theorem remaining_pos {s : State} (hb : s.phase = .busy) : 0 < remaining s := by
  unfold remaining
  rw [if_pos hb]
  split <;> omega

/-- Each branch of the stage rules leaves less to do. -/
theorem EngineMove.remaining_lt {s t : State} (hb : s.phase = .busy) (h : EngineMove s t) :
    remaining t < remaining s := by
  cases h with
  | empty hs | badLength hs =>
    rw [remaining_check hb hs, remaining_of_not_busy (by simp)]
    omega
  | toScan hs =>
    rw [remaining_check hb hs, remaining_scan (by exact hb) rfl]
    simp only
    omega
  | hold hs _ hp | group hs _ hp | keep _ hs _ hp | fill _ hs _ hp =>
    rw [remaining_scan hb hs]
    refine Nat.lt_of_le_of_lt (remaining_scan (by exact hb) (by exact hs)).le ?_
    simp only
    omega
  | pad hs | exhausted hs =>
    rw [remaining_scan hb hs, remaining_tail (by exact hb) rfl]
    omega
  | disallowed hs | invalid hs =>
    rw [remaining_scan hb hs, remaining_of_not_busy (by simp)]
    omega
  | finish _ hs | badShift hs =>
    rw [remaining_tail hb hs, remaining_of_not_busy (by simp)]
    omega

/-! Runs of the engine. -/

/-- What every move of the engine keeps, a run keeps. -/
theorem runEngine_keeps {P : State → Prop} (hmove : ∀ s t, s.phase = .busy → P s → EngineMove s t → P t) {k : Nat}
    {s t : State} (hs : P s) (h : runEngine k s = .ok t) : P t := by
  induction k generalizing s with
  | zero => exact Except.ok.inj h ▸ hs
  | succ k ih =>
    by_cases hb : s.phase = .busy
    · cases he : engineStep s with
      | error f => simp [runEngine, hb, he] at h
      | ok u => exact ih (hmove s u hb hs (engineStep_ok hb he)) (runEngine_succ_busy hb he k ▸ h)
    · rw [runEngine_of_not_busy hb] at h
      exact Except.ok.inj h ▸ hs

theorem runEngine_frame {k : Nat} {s t : State} (h : runEngine k s = .ok t) : EngineFrame s t :=
  runEngine_keeps (P := EngineFrame s) (fun _ _ _ hf hm => hf.trans hm.frame) (.refl s) h

/-- A run goes on from where it stood after `k` steps. -/
theorem runEngine_add {k : Nat} {s t : State} (h : runEngine k s = .ok t) (j : Nat) :
    runEngine (k + j) s = runEngine j t := by
  induction k generalizing s with
  | zero => rw [Nat.zero_add, Except.ok.inj h]
  | succ k ih =>
    by_cases hb : s.phase = .busy
    · cases he : engineStep s with
      | error f => simp [runEngine, hb, he] at h
      | ok u => rw [Nat.succ_add, runEngine_succ_busy hb he, ih (runEngine_succ_busy hb he k ▸ h)]
    · rw [runEngine_of_not_busy hb] at h ⊢
      rw [← Except.ok.inj h, runEngine_of_not_busy hb]

/-- R94: the engine of a BUSY command reaches its end, and faults nowhere on the way. -/
theorem exists_runEngine_ended {s : State} (hb : s.phase = .busy) (h : BusyInv s) :
    ∃ t, runEngine (remaining s) s = .ok t ∧ t.ended := by
  induction hn : remaining s using Nat.strong_induction_on generalizing s with
  | _ n ih =>
    obtain ⟨u, hu⟩ := exists_engineStep hb h
    have hm := engineStep_ok hb hu
    have hlt := hm.remaining_lt hb
    obtain ⟨k, rfl⟩ : ∃ k, n = k + 1 := ⟨n - 1, by omega⟩
    rw [runEngine_succ_busy hb hu]
    rcases hm.busy_or_ended hb with hbu | hend
    · obtain ⟨t, ht, hend⟩ := ih _ (by omega) hbu (hm.busyInv h hbu) rfl
      obtain ⟨j, rfl⟩ : ∃ j, k = remaining u + j := ⟨k - remaining u, by omega⟩
      exact ⟨t, runEngine_mono ht (by rcases hend with h | h <;> simp [h]) j, hend⟩
    · exact ⟨u, runEngine_of_not_busy (by rcases hend with h | h <;> simp [h]) k, hend⟩

end Sys2Proof.Machine
end

section
/-! SUPPORT. When a command runs (70_reset_and_hazards.md R142, R145), and that it comes to its end (41_engine.md
R94). -/

namespace Sys2Proof.Machine

/-- R94: from its issue the engine of a command reaches the end within the bound. -/
theorem exists_runEngine_issued (w : CmdWord) {s : State} (hn : s.inLen ≤ s.params.maxInLen) :
    ∃ t, runEngine (s.inLen + 3) (issued w s) = .ok t ∧ t.ended :=
  exists_runEngine_ended (s := issued w s) rfl (busyInv_issued w hn)

/-- Settles O19: an issue leaves a BUSY state of the engine's invariant, from which every move leaves less to do. -/
theorem commandsEndWithinTheStepBound : Obligations.CommandsEndWithinTheStepBound := by
  intro w s s₁ h
  obtain ⟨-, hn, rfl⟩ := issue_ok_iff.mp h
  exact exists_runEngine_issued w hn

/-- A command answers exactly the state its engine run from the issue ends in. -/
theorem exec_next_iff {i : Instr} {s t : State} :
    exec i s = .next t ↔ s.phase ≠ .busy ∧ s.inLen ≤ s.params.maxInLen ∧
      runEngine (s.inLen + 3) (issued (encodeWord i) s) = .ok t := by
  constructor
  · intro h
    cases hi : issue (encodeWord i) s with
    | error r => rw [exec_eq_refused hi] at h; contradiction
    | ok s₁ =>
      obtain ⟨hb, hn, -⟩ := issue_ok_iff.mp hi
      obtain ⟨u, hu, -⟩ := exists_runEngine_issued (encodeWord i) hn
      rw [exec_eq_next hb hn hu] at h
      cases h
      exact ⟨hb, hn, hu⟩
  · rintro ⟨hb, hn, h⟩
    exact exec_eq_next hb hn h

/-- A command that may run answers a next state, in which it has ended. -/
theorem exists_exec_next (i : Instr) {s : State} (hb : s.phase ≠ .busy) (hn : s.inLen ≤ s.params.maxInLen) :
    ∃ t, exec i s = .next t ∧ t.ended := by
  obtain ⟨t, ht, hend⟩ := exists_runEngine_issued (encodeWord i) hn
  exact ⟨t, exec_eq_next hb hn ht, hend⟩

/-- No command faults, from any state. -/
theorem exec_ne_fault (i : Instr) (s : State) (f : Fault) : exec i s ≠ .fault f := by
  cases hi : issue (encodeWord i) s with
  | error r => rw [exec_eq_refused hi]; nofun
  | ok s₁ =>
    obtain ⟨hb, hn, -⟩ := issue_ok_iff.mp hi
    obtain ⟨t, ht, -⟩ := exists_exec_next i hb hn
    rw [ht]; nofun

/-- Settles O7: the issue is what can be refused, and an issued command always comes to its end. -/
theorem commandsRunExactlyWhenAllowed : Obligations.CommandsRunExactlyWhenAllowed := by
  intro i s
  refine ⟨⟨?_, ?_⟩, fun hb => exec_eq_refused (if_pos hb), fun hb hn => exec_eq_refused ?_⟩
  · rintro ⟨t, h⟩
    obtain ⟨hb, hn, -⟩ := exec_next_iff.mp h
    exact ⟨hb, hn⟩
  · rintro ⟨hb, hn⟩
    obtain ⟨t, h, -⟩ := exists_exec_next i hb hn
    exact ⟨t, h⟩
  · rw [issue, if_neg hb, if_pos hn]

end Sys2Proof.Machine
end

section
/-! SUPPORT. Everything a host action and a step can do, said once (70_reset_and_hazards.md R141; 41_engine.md R87). -/

namespace Sys2Proof.Machine

/-- The moves of the host: what each action that is not refused does. -/
inductive HostMove (s : State) : HostAction → State → Prop
  | writeIbuf (j : Nat) (v : Byte) : j < s.params.maxInLen → s.phase ≠ .busy →
      HostMove s (.writeIbuf j v) { s with ibuf := Memory.write s.ibuf j v }
  | writeInLen (n : Nat) : n < 2 ^ s.params.lenW → s.phase ≠ .busy →
      HostMove s (.writeInLen n) { s with inLen := n }
  | writeCmd (word : List Byte) (i : Instr) : decode word = .ok i → s.phase ≠ .busy → s.inLen ≤ s.params.maxInLen →
      HostMove s (.writeCmd word) (issued (encodeWord i) s)
  | command (word : List Byte) (i : Instr) (t : State) : decode word = .ok i → exec i s = .next t →
      HostMove s (.command word) t
  | read (port : Port) (draws value : Nat) : port.wf s.params = true →
      HostMove s (.read port) { s with draws := draws, seen := ⟨port, value⟩ :: s.seen }
  | assertReset : HostMove s .assertReset (assertReset s)
  | wait (script : List HostAction) :
      HostMove s .wait { s with script := script, seen := ⟨.status, (statusWord s).toNat⟩ :: s.seen }
  | readResult : HostMove s .readResult (readResult s)
  | copyByte (j draws : Nat) (v : Byte) : j < s.params.maxInLen → s.phase ≠ .busy →
      HostMove s (.copyByte j) { s with draws := draws, ibuf := Memory.write s.ibuf j v }
  | recode (word : List Byte) (i : Instr) : decode word = .ok i → s.phase = .done →
      HostMove s (.recode word) { s with script := recodeActions word s.outLen ++ s.script }

theorem ofHost_next_iff {x : Except Refusal State} {t : State} : ofHost x = .next t ↔ x = .ok t := by
  cases x <;> simp [ofHost]

/-- WAIT while BUSY: it comes again. -/
theorem waitStep_busy {s : State} (hb : s.phase = .busy) :
    waitStep s = .ok { s with script := .wait :: s.script, seen := ⟨.status, (statusWord s).toNat⟩ :: s.seen } := by
  simp only [waitStep, observe, readPort, hb, if_true]

/-- WAIT in another phase: it is done. -/
theorem waitStep_not_busy {s : State} (hb : s.phase ≠ .busy) :
    waitStep s = .ok { s with seen := ⟨.status, (statusWord s).toNat⟩ :: s.seen } := by
  simp only [waitStep, observe, readPort, hb, if_false]

theorem issueBytes_ok {word : List Byte} {s t : State} (h : issueBytes word s = .ok t) :
    ∃ i, decode word = .ok i ∧ issue (encodeWord i) s = .ok t := by
  unfold issueBytes at h
  split at h
  · contradiction
  · next i hi => exact ⟨i, hi, h⟩

theorem runBytes_next {word : List Byte} {s t : State} (h : runBytes word s = .next t) :
    ∃ i, decode word = .ok i ∧ exec i s = .next t := by
  unfold runBytes at h
  split at h
  · contradiction
  · next i hi => exact ⟨i, hi, h⟩

/-- A port that is read has its index in range. -/
theorem observe_wf {port : Port} {s t : State} (h : observe port s = .ok t) : port.wf s.params = true := by
  cases port with
  | cmd | inLen | status | outLen | errByte => rfl
  | ibuf i =>
    by_cases hi : i < s.params.maxInLen
    · exact decide_eq_true hi
    · simp [observe, readPort, hi] at h
  | obuf j =>
    by_cases hj : j < s.params.maxOutLen
    · exact decide_eq_true hj
    · simp [observe, readPort, hj] at h

/-- `IBUF[j] <- OBUF[j]` inside both buffers, outside BUSY, and nowhere else (R79, R141, R143). -/
theorem copyByte_ok_iff {j : Nat} {s t : State} :
    copyByte j s = .ok t ↔ j < s.params.maxOutLen ∧ j < s.params.maxInLen ∧ s.phase ≠ .busy ∧
      t = { (readObuf j s).2 with ibuf := Memory.write s.ibuf j (readObuf j s).1 } := by
  obtain ⟨d, hd⟩ := readObuf_state j s
  unfold copyByte
  split
  · simp; omega
  · rw [writeIbuf_ok_iff, hd]
    simp_all

theorem recode_ok {word : List Byte} {s t : State} (h : recode word s = .ok t) :
    ∃ i, decode word = .ok i ∧ s.phase = .done ∧ t = { s with script := recodeActions word s.outLen ++ s.script } := by
  unfold recode at h
  split at h
  · contradiction
  · next i hi =>
    split at h
    · next hp => exact ⟨i, hi, hp, (Except.ok.inj h).symm⟩
    · contradiction

/-- An action that answers a next state makes one of the host's moves. -/
theorem hostAct_next {a : HostAction} {s t : State} (h : hostAct a s = .next t) : HostMove s a t := by
  cases a with
  | writeIbuf j v =>
    obtain ⟨hj, hb, rfl⟩ := writeIbuf_ok_iff.mp (ofHost_next_iff.mp h)
    exact .writeIbuf j v hj hb
  | writeInLen n =>
    obtain ⟨hn, hb, rfl⟩ := writeInLen_ok_iff.mp (ofHost_next_iff.mp h)
    exact .writeInLen n hn hb
  | writeCmd word =>
    obtain ⟨i, hw, hi⟩ := issueBytes_ok (ofHost_next_iff.mp h)
    obtain ⟨hb, hn, rfl⟩ := issue_ok_iff.mp hi
    exact .writeCmd word i hw hb hn
  | command word =>
    obtain ⟨i, hw, hi⟩ := runBytes_next h
    exact .command word i t hw hi
  | read port =>
    have hp := observe_wf (ofHost_next_iff.mp h)
    obtain ⟨d, v, rfl⟩ := observe_ok (ofHost_next_iff.mp h)
    exact .read port d v hp
  | assertReset =>
    cases h
    exact .assertReset
  | wait =>
    have hw : waitStep s = .ok t := ofHost_next_iff.mp h
    by_cases hb : s.phase = .busy
    · rw [waitStep_busy hb] at hw
      cases hw
      exact .wait _
    · rw [waitStep_not_busy hb] at hw
      cases hw
      exact .wait s.script
  | readResult =>
    cases h
    exact .readResult
  | copyByte j =>
    obtain ⟨-, hj, hb, rfl⟩ := copyByte_ok_iff.mp (ofHost_next_iff.mp h)
    obtain ⟨d, hd⟩ := readObuf_state j s
    rw [hd]
    exact .copyByte j d _ hj hb
  | recode word =>
    obtain ⟨i, hw, hp, rfl⟩ := recode_ok (ofHost_next_iff.mp h)
    exact .recode word i hw hp
  | writeStatus _ | writeOutLen _ | writeErrByte _ | writeObuf _ _ => contradiction

/-- The turns of the machine: a move of the engine, a move of the host, or a turn that passes. -/
inductive StepMove (s : State) : State → Prop
  | engine (t : State) : s.mover = .engine → s.phase = .busy → EngineMove s.popTurn t → StepMove s t
  | host (a : HostAction) (rest : List HostAction) (t : State) : s.mover = .host → s.script = a :: rest →
      HostMove { s with script := rest, turns := s.turns.tail } a t → StepMove s t
  | pass : (s.mover = .engine → s.phase ≠ .busy) → StepMove s s.popTurn

/-- The engine's turn outside BUSY passes. -/
theorem engineStep_not_busy {s : State} (hb : s.phase ≠ .busy) : engineStep s = .ok s := if_neg hb

theorem step_engine {s : State} (hm : s.mover = .engine) : step s = engineTurn s.popTurn := by
  rw [step, takeTurn, hm]

/-- The turn of a host without an action passes. -/
theorem step_host_nil {s : State} (hm : s.mover = .host) (hs : s.script = []) : step s = .next s.popTurn := by
  rw [step, takeTurn, hm]
  simp only [hostTurn, popTurn_script, hs]

theorem step_engine_ok {s t : State} (hm : s.mover = .engine) (h : engineStep s.popTurn = .ok t) :
    step s = .next t := by
  rw [step_engine hm, engineTurn, h]

theorem step_next {s t : State} (h : step s = .next t) : StepMove s t := by
  cases hm : s.mover with
  | engine =>
    cases he : engineStep s.popTurn with
    | error f => rw [step_engine hm, engineTurn, he] at h; contradiction
    | ok u =>
      obtain rfl : u = t := by
        rw [step_engine_ok hm he] at h
        exact Host.Outcome.next.inj h
      by_cases hb : s.phase = .busy
      · exact .engine u hm hb (engineStep_ok (s := s.popTurn) hb he)
      · rw [engineStep_not_busy (s := s.popTurn) hb] at he
        exact Except.ok.inj he ▸ .pass fun _ => hb
  | host =>
    cases hs : s.script with
    | nil =>
      rw [step_host_nil hm hs] at h
      exact Host.Outcome.next.inj h ▸ .pass (by simp [hm])
    | cons a rest =>
      rw [step_host hm hs] at h
      exact .host a rest t hm hs (hostAct_next h)

/-! The parameters. -/

theorem HostMove.params_inst {a : HostAction} {s t : State} (h : HostMove s a t) :
    t.params = s.params ∧ t.inst = s.inst := by
  cases h with
  | command word i t _ h =>
    obtain ⟨-, -, hrun⟩ := exec_next_iff.mp h
    have hf := runEngine_frame hrun
    exact ⟨hf.params, hf.inst⟩
  | _ => exact ⟨rfl, rfl⟩

/-- Settles O53: no move of the engine or of the host writes them. -/
theorem stepKeepsTheParameters : Obligations.StepKeepsTheParameters := by
  intro s t h
  cases step_next h with
  | engine t _ _ hm => exact ⟨hm.frame.params, hm.frame.inst⟩
  | host a rest t _ _ hm => exact hm.params_inst
  | pass => exact ⟨rfl, rfl⟩

end Sys2Proof.Machine
end

section
/-! SUPPORT. The invariant of the machine (Safety.lean) is kept by every step, and no step of it faults. -/

namespace Sys2Proof.Machine

/-- Bytes written from `WPTR` on leave every byte below the new `WPTR` written. -/
theorem Memory.written_writeAll {m : Memory} {a : Nat} (h : ∀ j < a, (Memory.read m j).isSome) (bs : List Byte) :
    ∀ j < a + bs.length, (Memory.read (Memory.writeAll m a bs) j).isSome := by
  intro j hj
  rw [Memory.read_writeAll]
  split
  · rw [List.getElem?_eq_getElem (by omega)]
    rfl
  · exact h j (by omega)

/-- ACCUMULATE keeps the bits of `DACC` above `6 * DSHIFT` at 0 (R34). -/
theorem shiftIn_lt {acc : Group} {k : Nat} (v : Sextet) (h : acc.toNat < 2 ^ (6 * k)) :
    (shiftIn acc v).toNat < 2 ^ (6 * (k + 1)) := by
  have hv := v.isLt
  have hk : 2 ^ (6 * (k + 1)) = 2 ^ (6 * k) * 64 := by rw [Nat.mul_add, Nat.pow_add]
  rw [shiftIn_toNat, hk]
  omega

/-- The byte a SCAN step holds keeps the bits of `EBUF` above `8 * ECNT` at 0 (R33). -/
theorem ebuf_push_lt {x : BitVec 16} {c : BitVec 2} (b : Byte) (hc : c.toNat < 2) (hx : x.toNat < 2 ^ (8 * c.toNat)) :
    (x.extractLsb 7 0 ++ b : BitVec 16).toNat < 2 ^ (8 * (c + 1).toNat) := by
  have hb := b.isLt
  have hpush : (x.extractLsb 7 0 ++ b : BitVec 16).toNat = x.toNat % 256 * 256 + b.toNat := by
    refine (toNat_cat (x.extractLsb 7 0) b).trans ?_
    rw [toNat_field]
    simp
  rw [hpush]
  rcases ecnt_cases (by omega : c.toNat ≤ 2) with rfl | rfl | rfl
  · change x.toNat < 1 at hx
    change _ < 2 ^ 8
    omega
  · change _ < 2 ^ 16
    omega
  · contradiction

theorem statusInv_busy {s : State} (hb : s.phase = .busy) :
    StatusInv s ↔ s.reason = .none ∧ s.outLen = 0 ∧ s.errByte = 0x00 := by
  simp only [StatusInv, hb]

/-- Every move of the engine keeps the invariant. -/
theorem EngineMove.inv {s t : State} (hb : s.phase = .busy) (h : s.Inv) (hm : EngineMove s t) : t.Inv := by
  have hbusy : BusyInv s := h.busy hb
  obtain ⟨hreason, hout, herr⟩ := (statusInv_busy hb).mp h.status
  have hnext := fun ht => hm.busyInv hbusy ht
  cases hm with
  | empty | badLength | badShift =>
    exact { h with status := ⟨nofun, rfl, fun _ _ => rfl⟩, busy := nofun }
  | toScan | exhausted =>
    exact { h with busy := hnext }
  | hold hs hd hp hpm hc =>
    refine { h with posRange := hpm, ecntRange := ?_, ebufRange := ?_, busy := hnext }
    · show (s.ecnt + 1).toNat ≤ 2
      rw [BitVec.toNat_add]
      simp; omega
    · exact ebuf_push_lt _ hc h.ebufRange
  | group hs hd hp hpm hc hw =>
    exact { h with
      posRange := hpm, wptrRange := hw, ecntRange := Nat.zero_le _, ebufRange := Nat.zero_lt_one
      obufWf := Memory.wf_writeAll h.obufWf _ _, obufWithin := Memory.within_writeAll h.obufWithin hw
      written := Memory.written_writeAll h.written (List.map _ (groupSextets _))
      status := (statusInv_busy (by exact hb)).mpr ⟨hreason, hout, herr⟩, busy := hnext }
  | pad hs hd hp hpm =>
    exact { h with posRange := hpm, busy := hnext }
  | disallowed hs hd hp hpm =>
    exact { h with posRange := hpm, status := ⟨nofun, rfl, fun h _ => absurd rfl h⟩, busy := nofun }
  | invalid hs hd hp hpm =>
    exact { h with posRange := hpm, status := ⟨nofun, rfl, fun _ h => absurd rfl h⟩, busy := nofun }
  | keep v hs hd hp hpm hcl h3 =>
    refine { h with posRange := hpm, daccRange := ?_, busy := hnext }
    have hk : (s.dshift + 1).toNat = s.dshift.toNat + 1 := by
      rcases dshift_cases s.dshift with h | h | h | h <;> simp_all
    show (shiftIn s.dacc v).toNat < 2 ^ (6 * (s.dshift + 1).toNat)
    rw [hk]
    exact shiftIn_lt v h.daccRange
  | fill v hs hd hp hpm hcl h3 hw =>
    exact { h with
      posRange := hpm, wptrRange := hw, daccRange := Nat.zero_lt_one
      obufWf := Memory.wf_writeAll h.obufWf _ _, obufWithin := Memory.within_writeAll h.obufWithin hw
      written := Memory.written_writeAll h.written (groupBytes _)
      status := (statusInv_busy (by exact hb)).mpr ⟨hreason, hout, herr⟩, busy := hnext }
  | finish bytes hs hfin hw =>
    have hw' : s.wptr + bytes.length ≤ s.params.maxOutLen := by
      rcases hw with rfl | hw
      · exact h.wptrRange
      · exact hw
    exact { h with
      wptrRange := hw'
      obufWf := Memory.wf_writeAll h.obufWf _ _, obufWithin := Memory.within_writeAll h.obufWithin hw'
      written := Memory.written_writeAll h.written _, status := ⟨hreason, rfl, herr⟩, busy := nofun }

theorem runEngine_inv {k : Nat} {s t : State} (h : s.Inv) (hrun : runEngine k s = .ok t) : t.Inv :=
  runEngine_keeps (P := State.Inv) (fun _ _ hb h hm => hm.inv hb h) h hrun

/-- At every capacity of at least 1 the buffers are empty and every register is 0 after reset. -/
theorem inv_resetFor {p : Params} (hp : p.wf = true) : (State.resetFor p).Inv where
  params := hp
  ibufWf := .nil
  ibufWithin := nofun
  obufWf := .nil
  obufWithin := nofun
  inLenWidth := Nat.two_pow_pos _
  posRange := Nat.zero_le _
  wptrRange := Nat.zero_le _
  written := nofun
  ecntRange := Nat.zero_le _
  ebufRange := Nat.zero_lt_one
  daccRange := Nat.zero_lt_one
  status := ⟨rfl, rfl, rfl⟩
  busy := nofun

/-- Settles O50. -/
theorem resetMeetsTheInvariant : Obligations.ResetMeetsTheInvariant :=
  ⟨fun _ => inv_resetFor, inv_resetFor (by decide)⟩

theorem inv_issued (w : CmdWord) {s : State} (h : s.Inv) (hn : s.inLen ≤ s.params.maxInLen) : (issued w s).Inv :=
  { h with
    posRange := Nat.zero_le _, wptrRange := Nat.zero_le _, written := nofun, ecntRange := Nat.zero_le _
    ebufRange := Nat.zero_lt_one, daccRange := Nat.zero_lt_one, status := ⟨rfl, rfl, rfl⟩
    busy := fun _ => busyInv_issued w hn }

/-- Every move of the host keeps the invariant. -/
theorem HostMove.inv {a : HostAction} {s t : State} (h : s.Inv) (hm : HostMove s a t) : t.Inv := by
  cases hm with
  | writeIbuf j v hj hb | copyByte j d v hj hb =>
    exact { h with
      ibufWf := Memory.wf_write h.ibufWf _ _, ibufWithin := Memory.within_write h.ibufWithin hj _
      busy := fun h => absurd h hb }
  | writeInLen n hn hb => exact { h with inLenWidth := hn, busy := fun h => absurd h hb }
  | writeCmd word i _ hb hn => exact inv_issued (encodeWord i) h hn
  | command word i t _ hexec =>
    obtain ⟨-, hn, hrun⟩ := exec_next_iff.mp hexec
    exact runEngine_inv (inv_issued (encodeWord i) h hn) hrun
  | assertReset => exact { inv_resetFor h.params with }
  | read | wait | readResult | recode => exact { h with }

/-- Settles O51: each move of the engine and of the host keeps the invariant. -/
theorem stepKeepsTheInvariant : Obligations.StepKeepsTheInvariant := by
  intro s t h hstep
  cases step_next hstep with
  | engine t _ hb hm => exact EngineMove.inv (s := s.popTurn) hb { h with } hm
  | host a rest t _ _ hm => exact HostMove.inv (s := { s with script := rest, turns := s.turns.tail }) { h with } hm
  | pass => exact { h with }

theorem ofHost_ne_fault (x : Except Refusal State) (f : Fault) : ofHost x ≠ .fault f := by
  cases x <;> nofun

/-- An action of the host never faults: a command runs from its issue, and every other action is done or refused. -/
theorem hostAct_ne_fault (a : HostAction) (s : State) (f : Fault) : hostAct a s ≠ .fault f := by
  cases a with
  | command word =>
    show runBytes word s ≠ .fault f
    unfold runBytes
    split
    · nofun
    · exact exec_ne_fault _ s f
  | wait => exact ofHost_ne_fault (waitStep s) f
  | writeIbuf | writeInLen | writeCmd | read | copyByte | recode => exact ofHost_ne_fault _ f
  | assertReset | readResult | writeStatus | writeOutLen | writeErrByte | writeObuf => nofun

/-- Settles O52: while BUSY the engine's own invariant bounds every index it forms, outside BUSY it has no step, and the
host never faults. -/
theorem stepNeverFaults : Obligations.StepNeverFaults := by
  intro s f h
  cases hm : s.mover with
  | engine =>
    have hok : ∃ t, engineStep s.popTurn = .ok t := by
      by_cases hb : s.phase = .busy
      · exact exists_engineStep (s := s.popTurn) hb (h.busy hb)
      · exact ⟨_, engineStep_not_busy (s := s.popTurn) hb⟩
    obtain ⟨t, ht⟩ := hok
    rw [step_engine_ok hm ht]
    nofun
  | host =>
    cases hs : s.script with
    | nil => rw [step_host_nil hm hs]; nofun
    | cons a rest => rw [step_host hm hs]; exact hostAct_ne_fault a _ f

end Sys2Proof.Machine
end

section
/-! SUPPORT. The command word (30_encoding.md R56 to R60) and the step that runs one (41_engine.md R93). -/

namespace Sys2Proof.Machine

@[simp] theorem decodeWord_encodeWord (i : Instr) : decodeWord (encodeWord i) = i := by
  cases i <;> rfl

@[simp] theorem encodeWord_decodeWord (w : CmdWord) : encodeWord (decodeWord w) = w := by
  revert w
  decide

/-- Settles O1. -/
theorem commandWordsDecodeToTheTableRows : Obligations.CommandWordsDecodeToTheTableRows :=
  ⟨decode_encode .encodeStd, decode_encode .decodeStd, decode_encode .encodeUrl, decode_encode .decodeUrl⟩

/-- Settles O2: the decoder and the encoder of the word are inverse to each other. -/
theorem everyCommandWordIsOneCommand : Obligations.EveryCommandWordIsOneCommand := by
  refine ⟨fun w i => ⟨?_, ?_⟩, fun i => ⟨encodeWord_op i, wordVariant_encodeWord i⟩⟩
  · rintro rfl
    exact encodeWord_decodeWord w
  · rintro rfl
    exact decodeWord_encodeWord i

/-- A byte with nothing above its two low bits is the byte of the command they select. -/
theorem encode_decodeWord {b : Byte} (h : b.toNat < 4) : encode (decodeWord (b.extractLsb 1 0)) = [b] := by
  have hb : (b.extractLsb 1 0).setWidth 8 = b := by
    apply BitVec.eq_of_toNat_eq
    rw [BitVec.toNat_setWidth, toNat_field]
    omega
  rw [encode, encodeWord_decodeWord, hb]

/-- Settles O3: the decoder takes a byte below 4 with zero bytes above it, and such a byte is the encoder's. -/
theorem decodingInvertsEncoding : Obligations.DecodingInvertsEncoding := by
  intro bytes i
  constructor
  · intro h
    cases bytes with
    | nil => contradiction
    | cons b rest =>
      by_cases hw : b.toNat < 4 ∧ rest.all (fun c => c == 0#8)
      · rw [decode, if_pos hw] at h
        obtain ⟨hb, hrest⟩ := hw
        refine ⟨rest.length, ?_⟩
        rw [← Except.ok.inj h, encode_decodeWord hb, List.singleton_append,
          List.eq_replicate_of_mem fun c hc => eq_of_beq (List.all_eq_true.mp hrest c hc), List.length_replicate]
      · rw [decode, if_neg hw] at h
        contradiction
  · rintro ⟨n, rfl⟩
    have h0 : (List.replicate n 0#8).all (fun c => c == 0#8) = true := by simp
    have h := decode_encode i
    simp only [encode, decode, List.singleton_append, List.all_nil, h0, and_true] at h ⊢
    exact h

theorem hostAct_command {word : List Byte} {i : Instr} (h : decode word = .ok i) (s : State) :
    hostAct (.command word) s = exec i s := by
  simp only [hostAct, runBytes, h]

/-- Settles O4: the host's turn takes the action at the head of its program, and the action runs the decoded command. -/
theorem stepRunsTheDecodedCommand : Obligations.StepRunsTheDecodedCommand := by
  refine ⟨fun s word rest i hm hs hw _ => (step_host hm hs).trans (hostAct_command hw _), fun s nbits w i hw => ?_⟩
  have hword : decode (wordBytes nbits w) = .ok i := by
    unfold decodeTableWord at hw
    split at hw
    · next h => rw [h, Option.some.inj hw]
    · contradiction
  exact (step_host (s := s.withFetchWord nbits w) rfl rfl).trans (hostAct_command hword _)

end Sys2Proof.Machine
end

section
/-! SUPPORT. CLASSIFY by its conditions, and as the inverse of FWD (30_encoding.md R77, 40_alphabet_lookup_table.md R83,
R84). -/

namespace Sys2Proof.Machine

/-- Settles O34: FWD on the three ranges where the alphabets agree, and at the two indices where they differ. -/
theorem alphabetsHaveTheAsciiCodes : Obligations.AlphabetsHaveTheAsciiCodes :=
  fun var _ => ⟨fwd_toNat_upper var, fwd_toNat_lower var, fwd_toNat_digit var, rfl, rfl, rfl, rfl⟩

/-- The characters of the other variant alone (R77). -/
def OtherVariantOnly (var : Variant) (c : Byte) : Prop :=
  (var = .urlSafe ∧ (c = 0x2B ∨ c = 0x2F)) ∨ (var = .standard ∧ (c = 0x2D ∨ c = 0x5F))

/-- They are entries of the other alphabet, so `REV` is valid at them, and none is `'='`. -/
theorem OtherVariantOnly.valid {var : Variant} {c : Byte} (h : OtherVariantOnly var c) :
    c ≠ padChar ∧ revIsValid c = true := by
  rcases h with ⟨-, rfl | rfl⟩ | ⟨-, rfl | rfl⟩ <;> decide

theorem classify_padChar (var : Variant) : classify var padChar = .pad := if_pos rfl

theorem classify_of_other {var : Variant} {c : Byte} (h : OtherVariantOnly var c) : classify var c = .disallowed := by
  rcases h with ⟨rfl, rfl | rfl⟩ | ⟨rfl, rfl | rfl⟩ <;> rfl

/-- A character that is neither `'='` nor of the other variant alone has the class `REV` gives it. -/
theorem classify_of_not_other {var : Variant} {c : Byte} (hp : c ≠ padChar) (ho : ¬ OtherVariantOnly var c) :
    classify var c = if revIsValid c = false then .invalid else .value (revValue c) := by
  rw [OtherVariantOnly, not_or] at ho
  rw [classify, if_neg hp, if_neg ho.1, if_neg ho.2]

theorem classify_pad_iff {var : Variant} {c : Byte} : classify var c = .pad ↔ c = padChar := by
  refine ⟨fun h => Classical.byContradiction fun hp => ?_, fun h => h ▸ classify_padChar var⟩
  by_cases ho : OtherVariantOnly var c
  · rw [classify_of_other ho] at h; contradiction
  · rw [classify_of_not_other hp ho] at h; split at h <;> contradiction

theorem classify_disallowed_iff {var : Variant} {c : Byte} :
    classify var c = .disallowed ↔ OtherVariantOnly var c := by
  refine ⟨fun h => Classical.byContradiction fun ho => ?_, classify_of_other⟩
  by_cases hp : c = padChar
  · rw [hp, classify_padChar] at h; contradiction
  · rw [classify_of_not_other hp ho] at h; split at h <;> contradiction

theorem classify_invalid_iff {var : Variant} {c : Byte} :
    classify var c = .invalid ↔ c ≠ padChar ∧ revIsValid c = false := by
  constructor
  · intro h
    have hp : c ≠ padChar := fun hp => by rw [classify_pad_iff.mpr hp] at h; contradiction
    have ho : ¬ OtherVariantOnly var c := fun ho => by rw [classify_of_other ho] at h; contradiction
    rw [classify_of_not_other hp ho] at h
    split at h
    · next hv => exact ⟨hp, hv⟩
    · contradiction
  · rintro ⟨hp, hv⟩
    have ho : ¬ OtherVariantOnly var c := fun ho => by rw [ho.valid.2] at hv; contradiction
    rw [classify_of_not_other hp ho, if_pos hv]

theorem classify_value_iff {var : Variant} {c : Byte} {v : Sextet} :
    classify var c = .value v ↔ c ≠ padChar ∧ ¬ OtherVariantOnly var c ∧ revIsValid c = true ∧ revValue c = v := by
  constructor
  · intro h
    have hp : c ≠ padChar := fun hp => by rw [classify_pad_iff.mpr hp] at h; contradiction
    have ho : ¬ OtherVariantOnly var c := fun ho => by rw [classify_of_other ho] at h; contradiction
    rw [classify_of_not_other hp ho] at h
    split at h
    · contradiction
    · next hv => exact ⟨hp, ho, Bool.eq_true_of_not_eq_false hv, CharClass.value.inj h⟩
  · rintro ⟨hp, ho, hv, rfl⟩
    rw [classify_of_not_other hp ho, if_neg (by simp [hv])]

/-- No entry of an alphabet is `'='` or of the other variant alone. -/
theorem fwd_ne_pad_not_other (var : Variant) (v : Sextet) :
    fwd var v ≠ padChar ∧ ¬ OtherVariantOnly var (fwd var v) := by
  unfold OtherVariantOnly
  revert v
  cases var <;> decide

theorem fwd_ne_padChar (var : Variant) (v : Sextet) : fwd var v ≠ padChar := (fwd_ne_pad_not_other var v).1

/-- R83: CLASSIFY finds the index of every character of its alphabet. -/
@[simp] theorem classify_fwd (var : Variant) (v : Sextet) : classify var (fwd var v) = .value v := by
  obtain ⟨hp, ho⟩ := fwd_ne_pad_not_other var v
  exact classify_value_iff.mpr ⟨hp, ho, revIsValid_fwd var v, revValue_fwd var v⟩

/-- The alphabets agree up to index 61 (R73). -/
theorem fwd_eq_fwd (var var' : Variant) {v : Sextet} (h : v.toNat ≤ 61) : fwd var v = fwd var' v := by
  revert v
  cases var <;> cases var' <;> decide

/-- R84: the characters at indices 62 and 63 are of their variant alone. -/
theorem other_of_fwd {var var' : Variant} (hne : var ≠ var') {v : Sextet} (h : 62 ≤ v.toNat) :
    OtherVariantOnly var' (fwd var v) := by
  have hv : v = 62#6 ∨ v = 63#6 := by bv_omega
  cases var <;> cases var'
  case standard.standard | urlSafe.urlSafe => contradiction
  case standard.urlSafe => exact .inl ⟨rfl, hv.imp (congrArg (fwd .standard)) (congrArg (fwd .standard))⟩
  case urlSafe.standard => exact .inr ⟨rfl, hv.imp (congrArg (fwd .urlSafe)) (congrArg (fwd .urlSafe))⟩

/-- R83: a character has the value `v` exactly when it is entry `v` of the alphabet. -/
theorem classify_value_iff_fwd {var : Variant} {c : Byte} {v : Sextet} : classify var c = .value v ↔ fwd var v = c := by
  constructor
  · intro h
    obtain ⟨-, ho, hv⟩ := classify_value_iff.mp h
    obtain ⟨var', rfl⟩ := (revValue_eq_iff c v).mp hv
    by_cases hvar : var' = var
    · rw [hvar]
    · by_cases hle : v.toNat ≤ 61
      · exact fwd_eq_fwd var var' hle
      · exact absurd (other_of_fwd hvar (by omega)) ho
  · rintro rfl
    exact classify_fwd var v

/-- Settles O36: `REV` and CLASSIFY undo FWD, and FWD undoes the VALUE class. -/
theorem tableLaws : Obligations.TableLaws := by
  refine ⟨fun var i => ⟨(rev_fwd var i).trans ?_, classify_fwd var i⟩, fun var c v => classify_value_iff_fwd.mp⟩
  revert i
  decide

/-- Settles O38: the conditions of the four classes, each by its own lemma. -/
theorem characterClasses : Obligations.CharacterClasses := fun var c =>
  ⟨classify_pad_iff, classify_disallowed_iff, classify_invalid_iff,
    fun _ => classify_value_iff.trans (by rw [ne_eq (classify var c), classify_disallowed_iff]; rfl),
    fun _ => classify_value_iff_fwd⟩

end Sys2Proof.Machine
end

section
/-! SUPPORT. The parameters, reset and the host's table of actions (00_scope.md R10, R11; 70_reset_and_hazards.md R136
to R144). -/

namespace Sys2Proof.Machine

theorem maxInLen_le_maxOutLen (p : Params) : p.maxInLen ≤ p.maxOutLen := by
  unfold Params.maxOutLen
  omega

theorem maxOutLen_lt (p : Params) : p.maxOutLen < 2 ^ p.lenW := Nat.lt_log2_self

/-- Settles O40: a width reaches past `MAX_OUT_LEN` exactly when it is above its base 2 logarithm. -/
theorem lengthWidthIsLeast : Obligations.LengthWidthIsLeast := by
  intro p hp
  have h0 : p.maxOutLen ≠ 0 := by
    have h1 : 1 ≤ p.maxInLen := of_decide_eq_true hp
    have := maxInLen_le_maxOutLen p
    omega
  exact ⟨maxInLen_le_maxOutLen p, maxOutLen_lt p, fun w hw => (Nat.log2_lt h0).mpr hw⟩

/-! Reads of `OBUF`. -/

/-- Inside a DONE result the host reads the byte written. -/
theorem readObuf_result {s : State} {j : Nat} (hp : s.phase = .done) (hj : j < s.outLen) :
    readObuf j s = ((Memory.read s.obuf j).getD (Config.anyObufByte s.inst s.draws), s) := if_pos ⟨hp, hj⟩

/-- Elsewhere it reads any value. -/
theorem readObuf_free {s : State} {j : Nat} (h : ¬ (s.phase = .done ∧ j < s.outLen)) :
    readObuf j s = (Config.anyObufByte s.inst s.draws, { s with draws := s.draws + 1 }) := if_neg h

theorem readObuf_of_not_done {s : State} (h : s.phase ≠ .done) (j : Nat) :
    readObuf j s = (Config.anyObufByte s.inst s.draws, { s with draws := s.draws + 1 }) :=
  readObuf_free fun hd => h hd.1

/-- Settles O41: reset builds the state anew but for the host's side, the parameters and the two counters. -/
theorem resetRestoresEveryRegister : Obligations.ResetRestoresEveryRegister := by
  intro s
  refine ⟨assertReset s, rfl, rfl, rfl, rfl, rfl, rfl, rfl, rfl, rfl, rfl, rfl, rfl, rfl, rfl, rfl, rfl,
    Nat.succ_ne_self s.epoch, fun _ => rfl, fun j => ?_, fun i => ?_⟩
  · rw [readObuf_of_not_done (by simp)]
  · obtain ⟨u, hu, -⟩ := exists_exec_next i (s := assertReset s) (by simp) (by simp)
    exact ⟨u, hu⟩

/-! The host's writes. -/

theorem ibufByte_write_same (s : State) (i : Nat) (v : Byte) :
    State.ibufByte { s with ibuf := Memory.write s.ibuf i v } i = v := by
  rw [State.ibufByte, Memory.read_write_same]
  rfl

theorem ibufByte_write_other (s : State) {i k : Nat} (v : Byte) (h : k ≠ i) :
    State.ibufByte { s with ibuf := Memory.write s.ibuf i v } k = s.ibufByte k := by
  rw [State.ibufByte, State.ibufByte, Memory.read_write_other _ _ _ _ h]

theorem hostAct_writeIbuf {s : State} {i : Nat} (v : Byte) (hi : i < s.params.maxInLen) (hb : s.phase ≠ .busy) :
    hostAct (.writeIbuf i v) s = .next { s with ibuf := Memory.write s.ibuf i v } :=
  ofHost_next_iff.mpr (writeIbuf_ok_iff.mpr ⟨hi, hb, rfl⟩)

theorem hostAct_writeInLen {s : State} {n : Nat} (hn : n < 2 ^ s.params.lenW) (hb : s.phase ≠ .busy) :
    hostAct (.writeInLen n) s = .next { s with inLen := n } :=
  ofHost_next_iff.mpr (writeInLen_ok_iff.mpr ⟨hn, hb, rfl⟩)

/-- Settles O42: a write is done exactly inside its range and outside BUSY. -/
theorem hostWritesFollowTheTable : Obligations.HostWritesFollowTheTable := by
  intro s
  refine ⟨fun i v hi hb => ⟨_, hostAct_writeIbuf v hi hb, ibufByte_write_same s i v,
      fun k hk => ibufByte_write_other s v hk, rfl⟩,
    fun i v h => exists_ofHost_eq_refused fun t ht => ?_, fun n hn hb => hostAct_writeInLen hn hb,
    fun n hb => exists_ofHost_eq_refused fun t ht => (writeInLen_ok_iff.mp ht).2.1 hb⟩
  obtain ⟨hi, hb, -⟩ := writeIbuf_ok_iff.mp ht
  exact h.elim (Nat.not_le.mpr hi) hb

/-! The host's reads. -/

/-- A read of a register is recorded and changes nothing else. -/
theorem hostAct_read {s : State} {port : Port} {v : Nat} (h : readPort port s = .ok (v, s)) :
    hostAct (.read port) s = .next { s with seen := ⟨port, v⟩ :: s.seen } := by
  simp only [hostAct, observe, h, ofHost]

theorem readPort_obuf {s : State} {j : Nat} (hj : j < s.params.maxOutLen) :
    readPort (.obuf j) s = .ok ((readObuf j s).1.toNat, (readObuf j s).2) := if_pos hj

theorem hostAct_read_refused {s : State} {port : Port} {r : Refusal} (h : readPort port s = .error r) :
    hostAct (.read port) s = .refused r := by
  simp only [hostAct, observe, h, ofHost]

/-- Settles O43: each port by its own clause of the read. -/
theorem hostReadsFollowTheTable : Obligations.HostReadsFollowTheTable := by
  intro s
  refine ⟨hostAct_read rfl, hostAct_read rfl, hostAct_read rfl, hostAct_read rfl, hostAct_read rfl,
    fun i hi => hostAct_read (if_pos hi), fun j b hj hp ho hr => hostAct_read ?_, fun j hj h => ?_,
    fun i hi => hostAct_read_refused (if_neg (Nat.not_lt.mpr hi)),
    fun j hj => hostAct_read_refused (if_neg (Nat.not_lt.mpr hj))⟩
  · rw [readPort_obuf hj, readObuf_result hp ho, hr]
    rfl
  · simp only [hostAct, observe, readPort_obuf hj, readObuf_free h, ofHost]

/-- Settles O46: outside DONE a read of `OBUF` is free, and the invariant fixes the registers while BUSY. -/
theorem readsWhileBusy : Obligations.ReadsWhileBusy := by
  intro s h hb
  obtain ⟨hreason, hout, herr⟩ := (statusInv_busy hb).mp h.status
  refine ⟨fun j => ?_, hostAct_read ?_, hostAct_read ?_, hostAct_read ?_⟩
  · rw [readObuf_of_not_done (by simp [hb])]
  · rw [readPort, statusWord, hreason, hb]
    rfl
  · rw [readPort, hout]
  · rw [readPort, herr]
    rfl

/-- Settles O23. -/
theorem waitRepeatsWhileBusy : Obligations.WaitRepeatsWhileBusy := by
  intro s
  exact ⟨fun hb => ofHost_next_iff.mpr (waitStep_busy hb), fun hb => ofHost_next_iff.mpr (waitStep_not_busy hb)⟩

/-! Ill-formed actions. -/

/-- Bytes that decode hold a 2-bit word. -/
theorem commandWordWf_of_decode {word : List Byte} {i : Instr} (h : decode word = .ok i) :
    commandWordWf word = true := by
  obtain ⟨n, rfl⟩ := (decodingInvertsEncoding word i).mp h
  cases i <;> simp [encode, encodeWord, commandWordWf]

/-- Every action the host makes is well formed. -/
theorem HostMove.wf {a : HostAction} {s t : State} (h : HostMove s a t) : a.wf s.params = true := by
  cases h with
  | writeIbuf j v hj | copyByte j _ v hj => exact decide_eq_true hj
  | writeInLen n hn => exact decide_eq_true hn
  | writeCmd word i hw | command word i _ hw | recode word i hw => exact commandWordWf_of_decode hw
  | read port _ _ hp => exact hp
  | assertReset | wait | readResult => rfl

/-- Settles O44: an action that is done is well formed, and none faults, so an ill-formed one is refused. -/
theorem illFormedHostActionsAreRefused : Obligations.IllFormedHostActionsAreRefused := by
  intro s a ha
  cases hact : hostAct a s with
  | next t =>
    rw [(hostAct_next hact).wf] at ha
    contradiction
  | fault f => exact absurd hact (hostAct_ne_fault a s f)
  | refused r => exact ⟨r, rfl⟩

end Sys2Proof.Machine
end

section
/-! SUPPORT. What a single engine step does (41_engine.md R87 to R91; 60_exceptions.md R122, R124). -/

namespace Sys2Proof.Machine

/-- While BUSY a step never leaves the state as it is: it leaves less to do. -/
theorem engineStep_ne_self {s : State} (hb : s.phase = .busy) : engineStep s ≠ .ok s :=
  fun h => Nat.lt_irrefl _ ((engineStep_ok hb h).remaining_lt hb)

/-- Settles O6: outside BUSY a turn of the engine passes; while BUSY there is a step, and it leaves less to do. -/
theorem engineHasAStepExactlyWhenBusy : Obligations.EngineHasAStepExactlyWhenBusy := by
  refine ⟨fun s => ⟨fun h hb => engineStep_ne_self hb h, engineStep_not_busy⟩, fun s h hb => ?_⟩
  obtain ⟨t, ht⟩ := exists_engineStep hb (h.busy hb)
  exact ⟨t, ht, fun hts => engineStep_ne_self hb (hts ▸ ht)⟩

/-- Bytes written from `a` on leave every other byte as it was. -/
theorem Memory.read_writeAll_outside (m : Memory) {a : Nat} {bs : List Byte} {j : Nat}
    (h : j < a ∨ a + bs.length ≤ j) : Memory.read (Memory.writeAll m a bs) j = Memory.read m j := by
  rw [Memory.read_writeAll, if_neg (by omega)]

/-- What a move of the engine reads and writes: at most one byte at `POS`, and at most four from `WPTR` on. -/
structure EngineAccess (s t : State) : Prop where
  pos_le   : s.pos ≤ t.pos
  pos_le'  : t.pos ≤ s.pos + 1
  wptr_le  : s.wptr ≤ t.wptr
  wptr_le' : t.wptr ≤ s.wptr + 4
  outside  : ∀ j, j < s.wptr ∨ t.wptr ≤ j → Memory.read t.obuf j = Memory.read s.obuf j

theorem EngineAccess.refl (s : State) : EngineAccess s s :=
  ⟨Nat.le_refl _, Nat.le_succ _, Nat.le_refl _, Nat.le_add_right _ _, fun _ _ => rfl⟩

/-- A move that emits `bs`, at most four bytes. -/
theorem EngineAccess.of_emit {s t : State} {bs : List Byte} (hp : s.pos ≤ t.pos) (hp' : t.pos ≤ s.pos + 1)
    (hw : t.wptr = s.wptr + bs.length) (hl : bs.length ≤ 4) (ho : t.obuf = Memory.writeAll s.obuf s.wptr bs) :
    EngineAccess s t where
  pos_le := hp
  pos_le' := hp'
  wptr_le := by omega
  wptr_le' := by omega
  outside j hj := by rw [ho, Memory.read_writeAll_outside]; omega

theorem EngineMove.access {s t : State} (h : EngineMove s t) : EngineAccess s t := by
  cases h with
  | empty | badLength | toScan | exhausted | badShift => exact { EngineAccess.refl s with }
  | hold | pad | disallowed | invalid | keep =>
    exact { EngineAccess.refl s with pos_le := Nat.le_succ _, pos_le' := Nat.le_refl _ }
  | group => exact .of_emit (Nat.le_succ _) (Nat.le_refl _) (bs := List.map _ (groupSextets _)) rfl (Nat.le_refl 4) rfl
  | fill => exact .of_emit (Nat.le_succ _) (Nat.le_refl _) (bs := groupBytes _) rfl (by simp) rfl
  | finish bytes hs hfin =>
    refine .of_emit (Nat.le_refl _) (Nat.le_succ _) (bs := bytes) rfl ?_ rfl
    rcases hfin with ⟨-, rfl⟩ | ⟨-, ⟨-, rfl⟩ | ⟨-, rfl⟩ | ⟨-, rfl⟩⟩
    · have hl := encTailBytes_length_le s.variant s
      have hc := s.ecnt.isLt
      omega
    · exact Nat.zero_le 4
    · exact (by decide : 1 ≤ 4)
    · exact (by decide : 2 ≤ 4)

/-- Settles O17: by the moves of the engine; outside BUSY it has none. -/
theorem engineStepFrame : Obligations.EngineStepFrame := by
  intro s t h
  have hacc : EngineFrame s t ∧ EngineAccess s t := by
    by_cases hb : s.phase = .busy
    · exact ⟨(engineStep_ok hb h).frame, (engineStep_ok hb h).access⟩
    · rw [engineStep_not_busy hb] at h
      cases h
      exact ⟨.refl s, .refl s⟩
  obtain ⟨hf, ⟨hp, hp', hw, hw', ho⟩⟩ := hacc
  exact ⟨hf, hp, hp', hw, hw', ho⟩

/-- Settles O26: with at most three values accumulated the six top bits of `DACC` are 0. -/
theorem accumulatorNeverLosesABit : Obligations.AccumulatorNeverLosesABit := by
  intro s v h
  have hk : s.dshift.toNat ≤ 3 := by have := s.dshift.isLt; omega
  have hacc : s.dacc.toNat < 2 ^ 18 :=
    Nat.lt_of_lt_of_le h.daccRange (Nat.pow_le_pow_right (by decide) (by omega))
  rw [shiftIn_toNat]
  omega

/-! The errors. -/

theorem isBad_iff {var : Variant} {c : Byte} :
    isBad var c = true ↔ classify var c = .disallowed ∨ classify var c = .invalid := by
  unfold isBad
  split <;> simp_all

/-- The error the next step of a BUSY engine ends the command with, by stage (R122). -/
def nextError (s : State) : Option InvalidInput :=
  match s.estage with
  | .check =>
    if s.inLen = 0 then some ⟨.emptyInput, 0x00⟩
    else if s.isDecode = true ∧ s.variant = .standard ∧ s.inLen % 4 ≠ 0 then some ⟨.badLength, 0x00⟩
    else none
  | .scan =>
    if s.pos < s.inLen ∧ s.isDecode = true ∧ isBad s.variant (s.ibufByte s.pos) = true then
      some (charError s.variant (s.ibufByte s.pos))
    else none
  | .tail => if s.isDecode = true ∧ s.dshift = 1#2 then some ⟨.invalidShift, 0x00⟩ else none

theorem nextError_eq_some_iff {s : State} {e : InvalidInput} :
    nextError s = some e ↔
      (s.estage = .check ∧ s.inLen = 0 ∧ e = ⟨.emptyInput, 0x00⟩) ∨
      (s.estage = .check ∧ s.inLen ≠ 0 ∧ s.isDecode = true ∧ s.variant = .standard ∧ s.inLen % 4 ≠ 0 ∧
        e = ⟨.badLength, 0x00⟩) ∨
      (s.estage = .scan ∧ s.pos < s.inLen ∧ s.isDecode = true ∧ isBad s.variant (s.ibufByte s.pos) = true ∧
        e = charError s.variant (s.ibufByte s.pos)) ∨
      (s.estage = .tail ∧ s.isDecode = true ∧ s.dshift = 1#2 ∧ e = ⟨.invalidShift, 0x00⟩) := by
  constructor
  · intro h
    unfold nextError at h
    split at h
    · next hs =>
      split_ifs at h with h0 hl
      · exact .inl ⟨hs, h0, (Option.some.inj h).symm⟩
      · obtain ⟨hd, hv, hl⟩ := hl
        exact .inr (.inl ⟨hs, h0, hd, hv, hl, (Option.some.inj h).symm⟩)
    · next hs =>
      split_ifs at h with hc
      obtain ⟨hp, hd, hbad⟩ := hc
      exact .inr (.inr (.inl ⟨hs, hp, hd, hbad, (Option.some.inj h).symm⟩))
    · next hs =>
      split_ifs at h with hc
      exact .inr (.inr (.inr ⟨hs, hc.1, hc.2, (Option.some.inj h).symm⟩))
  · rintro (⟨hs, h0, rfl⟩ | ⟨hs, h0, hd, hv, hl, rfl⟩ | ⟨hs, hp, hd, hbad, rfl⟩ | ⟨hs, hd, hk, rfl⟩)
    · simp only [nextError, hs, h0, if_true]
    · simp only [nextError, hs, if_neg h0, if_pos (And.intro hd (And.intro hv hl))]
    · simp only [nextError, hs, if_pos (And.intro hp (And.intro hd hbad))]
    · simp only [nextError, hs, if_pos (And.intro hd hk)]

/-- A step that ends the command with the error `e`, or with none. -/
def StepEnds (s t : State) : Option InvalidInput → Prop
  | some e => t.phase = .error ∧ t.reason = e.reason ∧ t.errByte = e.byte ∧ t.outLen = 0 ∧ t.obuf = s.obuf
  | none => t.phase ≠ .error

/-- R122, R124: a move raises exactly the error of its stage and condition. -/
theorem EngineMove.stepEnds {s t : State} (hb : s.phase = .busy) (h : EngineMove s t) :
    StepEnds s t (nextError s) := by
  cases h with
  | empty hs h0 =>
    rw [nextError_eq_some_iff.mpr (.inl ⟨hs, h0, rfl⟩)]
    exact ⟨rfl, rfl, rfl, rfl, rfl⟩
  | badLength hs hd h0 hv hl =>
    rw [nextError_eq_some_iff.mpr (.inr (.inl ⟨hs, h0, hd, hv, hl, rfl⟩))]
    exact ⟨rfl, rfl, rfl, rfl, rfl⟩
  | disallowed hs hd hp _ hcl =>
    rw [nextError_eq_some_iff.mpr (.inr (.inr (.inl ⟨hs, hp, hd, isBad_iff.mpr (.inl hcl), rfl⟩))), charError,
      if_pos hcl]
    exact ⟨rfl, rfl, rfl, rfl, rfl⟩
  | invalid hs hd hp _ hcl =>
    rw [nextError_eq_some_iff.mpr (.inr (.inr (.inl ⟨hs, hp, hd, isBad_iff.mpr (.inr hcl), rfl⟩))), charError,
      if_neg (by simp [hcl])]
    exact ⟨rfl, rfl, rfl, rfl, rfl⟩
  | badShift hs hd hk =>
    rw [nextError_eq_some_iff.mpr (.inr (.inr (.inr ⟨hs, hd, hk, rfl⟩)))]
    exact ⟨rfl, rfl, rfl, rfl, rfl⟩
  | toScan hs h0 hl =>
    have : nextError s = none := by simp only [nextError, hs, if_neg h0, if_neg hl]
    simp [this, StepEnds, hb]
  | hold hs hd | group hs hd =>
    have : nextError s = none := by simp [nextError, hs, hd]
    simp [this, StepEnds, hb]
  | pad hs hd hp _ hcl | keep _ hs hd hp _ hcl | fill _ hs hd hp _ hcl =>
    have : nextError s = none := by simp [nextError, hs, isBad, hcl]
    simp [this, StepEnds, hb]
  | exhausted hs hp =>
    have : nextError s = none := by simp [nextError, hs, hp]
    simp [this, StepEnds, hb]
  | finish bytes hs hfin =>
    have : nextError s = none := by
      rcases hfin with ⟨hd, -⟩ | ⟨-, ⟨hk, -⟩ | ⟨hk, -⟩ | ⟨hk, -⟩⟩
      · simp [nextError, hs, hd]
      all_goals simp [nextError, hs, hk]
    simp [this, StepEnds]

/-- A step raises a reason exactly when that is the reason of its error. -/
theorem StepEnds.raised_iff {s t : State} {o : Option InvalidInput} (h : StepEnds s t o) (r : Reason) :
    (t.phase = .error ∧ t.reason = r) ↔ ∃ e, o = some e ∧ e.reason = r := by
  cases o with
  | none => exact iff_of_false (fun hr => h hr.1) (by simp)
  | some e =>
    obtain ⟨hp, hr, -⟩ := h
    simp [hp, hr]

/-- A bad character is reported for one of two reasons. -/
theorem charError_reason_ne {var : Variant} {c : Byte} {r : Reason} (hd : r ≠ .disallowedChar)
    (hu : r ≠ .unrecognizedChar) : (charError var c).reason ≠ r := by
  unfold charError
  split
  · exact hd.symm
  · exact hu.symm

@[simp] theorem charError_byte (var : Variant) (c : Byte) : (charError var c).byte = c := by
  unfold charError
  split <;> rfl

theorem charError_reason_disallowed {var : Variant} {c : Byte} :
    (charError var c).reason = .disallowedChar ↔ classify var c = .disallowed := by
  unfold charError
  split <;> simp_all

theorem charError_reason_unrecognized {var : Variant} {c : Byte} :
    (charError var c).reason = .unrecognizedChar ↔ classify var c ≠ .disallowed := by
  unfold charError
  split <;> simp_all

/-- The step raises a reason of R122 exactly under its condition: the disjuncts of `nextError_eq_some_iff` with another
reason fall away. -/
theorem exists_nextError_iff (s : State) (r : Reason) :
    (∃ e, nextError s = some e ∧ e.reason = r) ↔
      (s.estage = .check ∧ s.inLen = 0 ∧ r = .emptyInput) ∨
      (s.estage = .check ∧ s.inLen ≠ 0 ∧ s.isDecode = true ∧ s.variant = .standard ∧ s.inLen % 4 ≠ 0 ∧
        r = .badLength) ∨
      (s.estage = .scan ∧ s.pos < s.inLen ∧ s.isDecode = true ∧ isBad s.variant (s.ibufByte s.pos) = true ∧
        (charError s.variant (s.ibufByte s.pos)).reason = r) ∨
      (s.estage = .tail ∧ s.isDecode = true ∧ s.dshift = 1#2 ∧ r = .invalidShift) := by
  simp only [nextError_eq_some_iff, or_and_right, exists_or, and_assoc, exists_and_left, exists_eq_left,
    eq_comm (b := r)]

theorem bad_and_disallowed_iff {var : Variant} {c : Byte} :
    isBad var c = true ∧ (charError var c).reason = .disallowedChar ↔
      (var = .standard ∧ (c = 0x2D ∨ c = 0x5F)) ∨ (var = .urlSafe ∧ (c = 0x2B ∨ c = 0x2F)) := by
  rw [isBad_iff, charError_reason_disallowed, or_comm (a := var = .standard ∧ _)]
  exact ⟨fun h => classify_disallowed_iff.mp h.2, fun h => ⟨.inl (classify_of_other h), classify_of_other h⟩⟩

theorem bad_and_unrecognized_iff {var : Variant} {c : Byte} :
    isBad var c = true ∧ (charError var c).reason = .unrecognizedChar ↔ c ≠ 0x3D ∧ revIsValid c = false := by
  rw [isBad_iff, charError_reason_unrecognized]
  exact ⟨fun h => classify_invalid_iff.mp (h.1.resolve_left h.2), fun h => by simp [classify_invalid_iff.mpr h]⟩

/-- The byte an error reports: the bad character, or 0x00. -/
theorem nextError_byte {s : State} {e : InvalidInput} (h : nextError s = some e) :
    e.reason ≠ .none ∧
      e.byte = if e.reason = .disallowedChar ∨ e.reason = .unrecognizedChar then s.ibufByte s.pos else 0x00 := by
  rcases nextError_eq_some_iff.mp h with ⟨-, -, rfl⟩ | ⟨-, -, -, -, -, rfl⟩ | ⟨-, -, -, -, rfl⟩ | ⟨-, -, -, rfl⟩
  case inr.inr.inl =>
    refine ⟨charError_reason_ne nofun nofun, ?_⟩
    rw [charError_byte, if_pos]
    rw [charError_reason_disallowed, charError_reason_unrecognized]
    exact em _
  all_goals exact ⟨nofun, rfl⟩

/-- Settles O18: a move of the engine ends the command with exactly the error of its stage and condition
(`EngineMove.stepEnds`), and an ended engine has no step. -/
theorem anErrorHasItsCause : Obligations.AnErrorHasItsCause := by
  intro s t hb h c raised
  have hends := (engineStep_ok hb h).stepEnds hb
  have hraised (r : Reason) := (hends.raised_iff r).trans (exists_nextError_iff s r)
  refine ⟨(hraised _).trans ?_, (hraised _).trans ?_, (hraised _).trans ?_, (hraised _).trans ?_, (hraised _).trans ?_,
    fun ht => ?_⟩
  · simp [charError_reason_ne]
  · simp [charError_reason_ne]
  · simp [bad_and_disallowed_iff, c]
  · simp [bad_and_unrecognized_iff, c]
  · simp [charError_reason_ne]
  · cases he : nextError s with
    | none => rw [he] at hends; exact absurd ht hends
    | some e =>
      rw [he] at hends
      obtain ⟨-, hr, hbyte, hout, hobuf⟩ := hends
      obtain ⟨hne, hval⟩ := nextError_byte he
      refine ⟨hr ▸ hne, by rw [hbyte, hr, hval], hout, hobuf, engineStep_not_busy (by simp [ht]), fun j => ?_⟩
      rw [readObuf_of_not_done (by simp [ht])]

end Sys2Proof.Machine
end

section
/-! SUPPORT. When `DEC` fails, and on what (43_decoder.md R105; 60_exceptions.md R122, R123). -/

namespace Sys2Proof.Machine

/-! The step of the loop of R105, by the class of the character. -/

theorem decLoop_pad {var : Variant} {c : Byte} (h : classify var c = .pad) (r t : List Byte) (acc : Group) (k : Nat) :
    decLoop var (c :: r) t acc k = decEnd t acc k := by
  simp only [decLoop, h]

theorem decLoop_bad {var : Variant} {c : Byte} (h : isBad var c = true) (r t : List Byte) (acc : Group) (k : Nat) :
    decLoop var (c :: r) t acc k = .error (charError var c) := by
  rcases isBad_iff.mp h with h | h <;> simp [decLoop, charError, h]

theorem decLoop_keep {var : Variant} {c : Byte} {v : Sextet} {k : Nat} (h : classify var c = .value v) (hk : k < 3)
    (r t : List Byte) (acc : Group) : decLoop var (c :: r) t acc k = decLoop var r t (shiftIn acc v) (k + 1) := by
  simp only [decLoop, h]
  rw [if_neg (by omega), Nat.mod_eq_of_lt (by omega)]

theorem decLoop_fill {var : Variant} {c : Byte} {v : Sextet} (h : classify var c = .value v) (r t : List Byte)
    (acc : Group) : decLoop var (c :: r) t acc 3 = decLoop var r (t ++ groupBytes (shiftIn acc v)) 0 0 := by
  simp only [decLoop, h]
  rfl

/-- A character is `'='`, bad, or accepted. -/
theorem char_cases (var : Variant) (c : Byte) :
    classify var c = .pad ∨ isBad var c = true ∨ ∃ v, classify var c = .value v := by
  cases h : classify var c with
  | pad => exact .inl rfl
  | disallowed => exact .inr (.inl (isBad_iff.mpr (.inl h)))
  | invalid => exact .inr (.inl (isBad_iff.mpr (.inr h)))
  | value v => exact .inr (.inr ⟨v, rfl⟩)

/-- An accepted character moves the loop on by one value, modulo 4, whatever is emitted. -/
theorem decLoop_value {var : Variant} {c : Byte} {v : Sextet} {k : Nat} (h : classify var c = .value v) (hk : k < 4)
    (r t : List Byte) (acc : Group) :
    ∃ t' acc', decLoop var (c :: r) t acc k = decLoop var r t' acc' ((k + 1) % 4) := by
  by_cases h3 : k = 3
  · subst h3
    exact ⟨_, _, decLoop_fill h r t acc⟩
  · rw [Nat.mod_eq_of_lt (by omega)]
    exact ⟨_, _, decLoop_keep h (by omega) r t acc⟩

/-! The characters that are scanned. -/

theorem scanned_cons_pad {var : Variant} {c : Byte} (h : classify var c = .pad) (r : List Byte) :
    scanned (c :: r) = [] := by
  simp [scanned, classify_pad_iff.mp h]

theorem scanned_cons {var : Variant} {c : Byte} (h : classify var c ≠ .pad) (r : List Byte) :
    scanned (c :: r) = c :: scanned r := by
  simp [scanned, mt classify_pad_iff.mpr h]

/-- The first error of the loop from `k` values left on: the first bad character scanned, else a single value left. -/
def loopCause (var : Variant) (r : List Byte) (k : Nat) : Option InvalidInput :=
  (((scanned r).find? (isBad var)).map (charError var)).or
    (if (k + (scanned r).length) % 4 = 1 then some ⟨.invalidShift, 0x00⟩ else none)

theorem loopCause_nil (var : Variant) (k : Nat) :
    loopCause var [] k = if k % 4 = 1 then some ⟨.invalidShift, 0x00⟩ else none := rfl

theorem loopCause_pad {var : Variant} {c : Byte} (h : classify var c = .pad) (r : List Byte) (k : Nat) :
    loopCause var (c :: r) k = loopCause var [] k := by
  rw [loopCause, scanned_cons_pad h]
  rfl

theorem loopCause_bad {var : Variant} {c : Byte} (h : isBad var c = true) (r : List Byte) (k : Nat) :
    loopCause var (c :: r) k = some (charError var c) := by
  have hp : classify var c ≠ .pad := by rcases isBad_iff.mp h with h | h <;> simp [h]
  simp [loopCause, scanned_cons hp, h]

theorem loopCause_value {var : Variant} {c : Byte} {v : Sextet} (h : classify var c = .value v) (r : List Byte)
    (k : Nat) : loopCause var (c :: r) k = loopCause var r ((k + 1) % 4) := by
  have hb : isBad var c = false := by simp [isBad, h]
  have hk : (k + ((scanned r).length + 1)) % 4 = ((k + 1) % 4 + (scanned r).length) % 4 := by omega
  simp [loopCause, scanned_cons (var := var) (c := c) (by simp [h]), hb, hk]

/-- A function value that fails exactly with the cause given, if any. -/
def FailsWith (x : Except InvalidInput (List Byte)) (o : Option InvalidInput) : Prop :=
  ∀ e, x = .error e ↔ o = some e

theorem failsWith_error (e : InvalidInput) : FailsWith (.error e) (some e) := fun _ => by simp

theorem failsWith_ok (out : List Byte) : FailsWith (.ok out) none := fun _ => by simp

/-- A value without a cause of failure is a success. -/
theorem FailsWith.exists_ok {x : Except InvalidInput (List Byte)} (h : FailsWith x none) : ∃ out, x = .ok out := by
  cases x with
  | error e => exact absurd ((h e).mp rfl) (by simp)
  | ok out => exact ⟨out, rfl⟩

theorem FailsWith.exists_ok_iff {x : Except InvalidInput (List Byte)} {o : Option InvalidInput} (h : FailsWith x o) :
    (∃ out, x = .ok out) ↔ o = none := by
  constructor
  · rintro ⟨out, rfl⟩
    cases o with
    | none => rfl
    | some e => exact absurd ((h e).mpr rfl) (by simp)
  · rintro rfl
    exact h.exists_ok

theorem decEnd_failsWith (t : List Byte) (acc : Group) {k : Nat} (hk : k < 4) (var : Variant) :
    FailsWith (decEnd t acc k) (loopCause var [] k) := by
  rw [loopCause_nil]
  rcases (by omega : k = 0 ∨ k = 1 ∨ k = 2 ∨ k = 3) with rfl | rfl | rfl | rfl
  · exact failsWith_ok _
  · exact failsWith_error _
  · exact failsWith_ok _
  · exact failsWith_ok _

/-- The loop fails exactly with its first error. -/
theorem decLoop_failsWith (var : Variant) (r t : List Byte) (acc : Group) {k : Nat} (hk : k < 4) :
    FailsWith (decLoop var r t acc k) (loopCause var r k) := by
  induction r generalizing t acc k with
  | nil => exact decEnd_failsWith t acc hk var
  | cons c r ih =>
    rcases char_cases var c with h | h | ⟨v, h⟩
    · rw [decLoop_pad h, loopCause_pad h]
      exact decEnd_failsWith t acc hk var
    · rw [decLoop_bad h, loopCause_bad h]
      exact failsWith_error _
    · obtain ⟨t', acc', heq⟩ := decLoop_value h hk r t acc
      rw [heq, loopCause_value h]
      exact ih t' acc' (Nat.mod_lt _ (by decide))

/-! The functions. -/

theorem dec_of_empty {var : Variant} {s : List Byte} (h : s.length = 0) : dec var s = .error ⟨.emptyInput, 0x00⟩ :=
  if_pos h

theorem dec_of_bad_length {var : Variant} {s : List Byte} (h0 : s.length ≠ 0)
    (hl : var = .standard ∧ s.length % 4 ≠ 0) : dec var s = .error ⟨.badLength, 0x00⟩ := by
  rw [dec, if_neg h0, if_pos hl]

theorem dec_eq_decLoop {var : Variant} {s : List Byte} (h0 : s.length ≠ 0)
    (hl : ¬ (var = .standard ∧ s.length % 4 ≠ 0)) : dec var s = decLoop var s [] 0 0 := by
  rw [dec, if_neg h0, if_neg hl]

theorem codec_encode {i : Instr} (h : i.isDecode = false) (s : List Byte) : codec i s = enc i.variant s := by
  cases i with
  | encodeStd | encodeUrl => rfl
  | decodeStd | decodeUrl => contradiction

theorem codec_decode {i : Instr} (h : i.isDecode = true) (s : List Byte) : codec i s = dec i.variant s := by
  cases i with
  | encodeStd | encodeUrl => contradiction
  | decodeStd | decodeUrl => rfl

/-- The causes of a decode, in the order of R123. -/
theorem firstCause_decode {i : Instr} {s : List Byte} (hd : i.isDecode = true) (h0 : s.length ≠ 0)
    (hl : ¬ (i.variant = .standard ∧ s.length % 4 ≠ 0)) : firstCause i s = loopCause i.variant s 0 := by
  simp only [firstCause, h0, hd, hl, loopCause, if_false, Bool.true_eq_false, Nat.zero_add]
  cases (scanned s).find? (isBad i.variant) <;> rfl

/-- R123: the function of a command fails exactly with the first of its causes. -/
theorem codec_failsWith (i : Instr) (s : List Byte) : FailsWith (codec i s) (firstCause i s) := by
  by_cases h0 : s.length = 0
  · have hcause : firstCause i s = some ⟨.emptyInput, 0x00⟩ := if_pos h0
    have hval : codec i s = .error ⟨.emptyInput, 0x00⟩ := by
      cases hd : i.isDecode
      · rw [codec_encode hd, enc_of_empty _ h0]
      · rw [codec_decode hd, dec_of_empty h0]
    rw [hcause, hval]
    exact failsWith_error _
  · cases hd : i.isDecode
    · have hcause : firstCause i s = none := by simp only [firstCause, h0, hd, if_false, if_true]
      rw [hcause, codec_encode hd, enc_of_nonempty _ h0]
      exact failsWith_ok _
    · rw [codec_decode hd]
      by_cases hl : i.variant = .standard ∧ s.length % 4 ≠ 0
      · have hcause : firstCause i s = some ⟨.badLength, 0x00⟩ := by
          simp only [firstCause, h0, hd, hl, if_false, Bool.true_eq_false, ne_eq, not_false_eq_true, and_self, if_true]
        rw [hcause, dec_of_bad_length h0 hl]
        exact failsWith_error _
      · rw [firstCause_decode hd h0 hl, dec_eq_decLoop h0 hl]
        exact decLoop_failsWith i.variant s [] 0 (by decide)

/-- The loop succeeds exactly when no bad character is scanned and not one value alone is left. -/
theorem loopCause_eq_none_iff {var : Variant} {s : List Byte} :
    loopCause var s 0 = none ↔ (∀ c ∈ scanned s, isBad var c = false) ∧ (scanned s).length % 4 ≠ 1 := by
  simp [loopCause]

/-- When a decode succeeds. -/
theorem exists_dec_ok_iff {var : Variant} {s : List Byte} (h0 : s.length ≠ 0)
    (hl : ¬ (var = .standard ∧ s.length % 4 ≠ 0)) :
    (∃ t, dec var s = .ok t) ↔ (∀ c ∈ scanned s, isBad var c = false) ∧ (scanned s).length % 4 ≠ 1 := by
  rw [dec_eq_decLoop h0 hl, (decLoop_failsWith var s [] 0 (by decide)).exists_ok_iff, loopCause_eq_none_iff]

/-- Settles O32: the length check comes before the scan, and UrlSafe has none. -/
theorem lengthCheckIsStandardOnly : Obligations.LengthCheckIsStandardOnly := fun _ hs =>
  ⟨fun hl => dec_of_bad_length hs.ne' ⟨rfl, hl⟩, exists_dec_ok_iff hs.ne' (by simp)⟩

/-- Settles O33. -/
theorem wrongVariantTextsFail : Obligations.WrongVariantTextsFail := by
  refine ⟨?_, ?_, ?_, ?_, ?_, ?_⟩ <;> decide

/-! What the loop does not look at. -/

/-- The loop ends at the first `'='` as it does at the end of input. -/
theorem decLoop_append_pad (var : Variant) (r u t : List Byte) (acc : Group) (k : Nat) :
    decLoop var (r ++ padChar :: u) t acc k = decLoop var r t acc k := by
  induction r generalizing t acc k with
  | nil => exact decLoop_pad (classify_padChar var) u t acc k
  | cons c r ih =>
    rw [List.cons_append]
    simp only [decLoop, ih]

/-- The value of a decode depends on the length of its text and the value of its loop alone. -/
theorem dec_congr {var : Variant} {s s' : List Byte} (hl : s.length = s'.length)
    (h : decLoop var s [] 0 0 = decLoop var s' [] 0 0) : dec var s = dec var s' := by
  rw [dec, dec, hl, h]

/-- Settles O30: both texts have the same length, and their loops end at the same `'='`. -/
theorem decodeStopsAtTheFirstPad : Obligations.DecodeStopsAtTheFirstPad := by
  refine ⟨fun var s u v huv => dec_congr (by simp [huv]) ?_, fun var u hu => ?_, fun s hs => ?_, by decide, by decide,
    by decide⟩
  · rw [decLoop_append_pad, decLoop_append_pad]
  · rw [dec_eq_decLoop (s := padChar :: u) (by simp) fun h => h.2 (hu h.1)]
    exact decLoop_pad (classify_padChar var) u [] 0 0
  · exact dec_of_bad_length (by rintro h; simp [h] at hs) ⟨rfl, hs⟩

/-- Behind whole groups two texts decode alike if they do on an empty accumulator. -/
theorem decLoop_append_congr {var : Variant} {x y : List Byte} (hxy : ∀ t, decLoop var x t 0 0 = decLoop var y t 0 0)
    (r t : List Byte) (acc : Group) {k : Nat} (hk : (k + r.length) % 4 = 0) (hlt : k < 4) (hacc : k = 0 → acc = 0) :
    decLoop var (r ++ x) t acc k = decLoop var (r ++ y) t acc k := by
  induction r generalizing t acc k with
  | nil =>
    obtain rfl : k = 0 := by simp at hk; omega
    rw [hacc rfl]
    exact hxy t
  | cons c r ih =>
    rw [List.cons_append, List.cons_append]
    rw [List.length_cons] at hk
    rcases char_cases var c with h | h | ⟨v, h⟩
    · rw [decLoop_pad h, decLoop_pad h]
    · rw [decLoop_bad h, decLoop_bad h]
    · by_cases h3 : k = 3
      · subst h3
        rw [decLoop_fill h, decLoop_fill h]
        exact ih _ _ (by omega) (by decide) fun _ => rfl
      · rw [decLoop_keep h (by omega), decLoop_keep h (by omega)]
        exact ih _ _ (by omega) (by omega) nofun

theorem decLoop_append_end {var : Variant} {rest : List Byte} (hrest : rest = [] ∨ ∃ u, rest = padChar :: u)
    (x t : List Byte) (acc : Group) (k : Nat) : decLoop var (x ++ rest) t acc k = decLoop var x t acc k := by
  rcases hrest with rfl | ⟨u, rfl⟩
  · rw [List.append_nil]
  · exact decLoop_append_pad var x u t acc k

/-- Two values left. -/
theorem decLoop_tail₂ (var : Variant) (v0 v : Sextet) (t : List Byte) :
    decLoop var [fwd var v0, fwd var v] t 0 0 = .ok (t ++ tailBytes₂ (shiftIn (shiftIn 0 v0) v)) := by
  rw [decLoop_keep (classify_fwd var v0) (by decide), decLoop_keep (classify_fwd var v) (by decide)]
  rfl

/-- Three values left. -/
theorem decLoop_tail₃ (var : Variant) (v0 v1 v : Sextet) (t : List Byte) :
    decLoop var [fwd var v0, fwd var v1, fwd var v] t 0 0 =
      .ok (t ++ tailBytes₃ (shiftIn (shiftIn (shiftIn 0 v0) v1) v)) := by
  rw [decLoop_keep (classify_fwd var v0) (by decide), decLoop_keep (classify_fwd var v1) (by decide),
    decLoop_keep (classify_fwd var v) (by decide)]
  rfl

/-- The byte of two values does not depend on the low four bits of the second. -/
theorem tailBytes₂_congr {v v' : Sextet} (v0 : Sextet) (h : v.extractLsb 5 4 = v'.extractLsb 5 4) :
    tailBytes₂ (shiftIn (shiftIn 0 v0) v) = tailBytes₂ (shiftIn (shiftIn 0 v0) v') := by
  have hn := congrArg BitVec.toNat h
  rw [toNat_field, toNat_field] at hn
  unfold tailBytes₂
  congr 1
  apply BitVec.eq_of_toNat_eq
  simp only [toNat_field, shiftIn_toNat]
  omega

/-- The bytes of three values do not depend on the low two bits of the third. -/
theorem tailBytes₃_congr {v v' : Sextet} (v0 v1 : Sextet) (h : v.extractLsb 5 2 = v'.extractLsb 5 2) :
    tailBytes₃ (shiftIn (shiftIn (shiftIn 0 v0) v1) v) = tailBytes₃ (shiftIn (shiftIn (shiftIn 0 v0) v1) v') := by
  have hn := congrArg BitVec.toNat h
  rw [toNat_field, toNat_field] at hn
  have hv := v.isLt
  have hv' := v'.isLt
  unfold tailBytes₃
  congr 1
  · apply BitVec.eq_of_toNat_eq
    simp only [toNat_field, shiftIn_toNat]
    omega
  · congr 1
    apply BitVec.eq_of_toNat_eq
    simp only [toNat_field, shiftIn_toNat]
    omega

/-- Settles O31: the loop comes to the tail with an empty accumulator, and the bytes of the tail leave the low bits of
the last value out. -/
theorem droppedBitsAreNotChecked : Obligations.DroppedBitsAreNotChecked := by
  refine ⟨fun var s rest v0 v v' hs hrest h => dec_congr (by simp) ?_,
    fun var s rest v0 v1 v v' hs hrest h => dec_congr (by simp) ?_, by decide, by decide⟩
  · rw [decLoop_append_end hrest, decLoop_append_end hrest]
    refine decLoop_append_congr (fun t => ?_) s [] 0 (by omega) (by decide) fun _ => rfl
    rw [decLoop_tail₂, decLoop_tail₂, tailBytes₂_congr v0 h]
  · rw [decLoop_append_end hrest, decLoop_append_end hrest]
    refine decLoop_append_congr (fun t => ?_) s [] 0 (by omega) (by decide) fun _ => rfl
    rw [decLoop_tail₃, decLoop_tail₃, tailBytes₃_congr v0 v1 h]

end Sys2Proof.Machine
end

section
/-! SUPPORT. The text of an encode as the characters of its 6-bit values and its padding (42_encoder.md R96, R97,
R99). -/

namespace Sys2Proof.Machine

/-- The 6-bit values of a byte sequence, the same under both variants (30_encoding.md R64 to R66). -/
def sextets : List Byte → List Sextet
  | [] => []
  | [b0] => tailSextets₁ b0
  | [b0, b1] => tailSextets₂ b0 b1
  | b0 :: b1 :: b2 :: rest => groupSextets (b0 ++ b1 ++ b2) ++ sextets rest

/-- How many characters pad the text of `n` bytes under Standard (R67). -/
def padCount (n : Nat) : Nat := (3 - n % 3) % 3

theorem padCount_add_three (n : Nat) : padCount (n + 3) = padCount n := by
  unfold padCount
  rw [Nat.add_mod_right]

theorem padding_zero (var : Variant) : padding var 0 = [] := by
  cases var <;> rfl

/-- R96: the text is the characters of the values, then the padding. -/
theorem encText_eq (var : Variant) (s : List Byte) :
    encText var s = (sextets s).map (fwd var) ++ padding var (padCount s.length) := by
  induction s using encText.induct with
  | case1 => exact (padding_zero var).symm
  | case2 b0 => rfl
  | case3 b0 b1 => rfl
  | case4 b0 b1 b2 rest ih =>
    simp only [encText, sextets, ih, List.map_append, List.append_assoc, List.length_cons, padCount_add_three]

theorem sextets_length (s : List Byte) : (sextets s).length = 4 * (s.length / 3) + [0, 2, 3].getD (s.length % 3) 0 := by
  induction s using encText.induct with
  | case1 => rfl
  | case2 b0 => simp [sextets]
  | case3 b0 b1 => simp [sextets]
  | case4 b0 b1 b2 rest ih =>
    rw [sextets, List.length_append, groupSextets_length, ih]
    simp only [List.length_cons, Nat.add_assoc, Nat.reduceAdd, Nat.add_mod_right,
      Nat.add_div_right _ (by decide : 0 < 3)]
    omega

/-- The table of R97, as a quotient. -/
theorem valueCount_eq (n : Nat) : 4 * (n / 3) + [0, 2, 3].getD (n % 3) 0 = (4 * n + 2) / 3 := by
  rcases (by omega : n % 3 = 0 ∨ n % 3 = 1 ∨ n % 3 = 2) with h | h | h <;> simp [h] <;> omega

/-- R97: `ceil(4n / 3)` values. -/
theorem sextets_length' (s : List Byte) : (sextets s).length = (4 * s.length + 2) / 3 :=
  (sextets_length s).trans (valueCount_eq _)

theorem encText_standard_length (s : List Byte) : (encText .standard s).length = 4 * ((s.length + 2) / 3) := by
  rw [encText_eq, List.length_append, List.length_map, sextets_length', padding_standard_length, padCount]
  omega

theorem encText_urlSafe_length (s : List Byte) : (encText .urlSafe s).length = (4 * s.length + 2) / 3 := by
  rw [encText_eq, List.length_append, List.length_map, sextets_length', padding_urlSafe_length, Nat.add_zero]

/-! R99. -/

theorem fwd_mem_alphaUrl (v : Sextet) : fwd .urlSafe v ∈ alphaUrl := by
  revert v
  decide

theorem fwd_mem_alphaStd (v : Sextet) : fwd .standard v ∈ alphaStd := by
  revert v
  decide

/-- The UrlSafe character for a Standard one. -/
theorem fwd_urlSafe_eq (v : Sextet) :
    fwd .urlSafe v =
      if fwd .standard v = 0x2B then 0x2D else if fwd .standard v = 0x2F then 0x5F else fwd .standard v := by
  revert v
  decide

/-- The low bits of the last value: those a tail of one or two bytes does not fill are 0 (R65, R66). -/
theorem exists_last_sextet {s : List Byte} (hs : 1 ≤ s.length) :
    ∃ body v, sextets s = body ++ [v] ∧ (s.length % 3 = 1 → v.extractLsb 3 0 = 0#4) ∧
      (s.length % 3 = 2 → v.extractLsb 1 0 = 0#2) := by
  induction s using encText.induct with
  | case1 => contradiction
  | case2 b0 =>
    refine ⟨[b0.extractLsb 7 2], _, rfl, fun _ => ?_, nofun⟩
    apply BitVec.eq_of_toNat_eq
    rw [toNat_field, toNat_cat]
    simp
  | case3 b0 b1 =>
    refine ⟨[b0.extractLsb 7 2, b0.extractLsb 1 0 ++ b1.extractLsb 7 4], _, rfl, nofun, fun _ => ?_⟩
    apply BitVec.eq_of_toNat_eq
    rw [toNat_field, toNat_cat]
    simp
  | case4 b0 b1 b2 rest ih =>
    have hmod : (b0 :: b1 :: b2 :: rest).length % 3 = rest.length % 3 := Nat.add_mod_right rest.length 3
    rw [hmod, sextets]
    by_cases h0 : rest = []
    · subst h0
      exact ⟨(groupSextets (b0 ++ b1 ++ b2)).take 3, _, rfl, nofun, nofun⟩
    · obtain ⟨body, v, hbody, hv⟩ := ih (List.length_pos_iff.mpr h0)
      exact ⟨groupSextets (b0 ++ b1 ++ b2) ++ body, v, by rw [hbody, List.append_assoc], hv⟩

/-- Settles O29: by `encText_eq` each property is one of the values and their characters. -/
theorem encodeTextProperties : Obligations.EncodeTextProperties := by
  intro s hs
  refine ⟨fun c hc => ?_, ⟨(sextets s).map (fwd .standard), encText_eq .standard s, fun c hc => ?_, ?_⟩, fun var => ?_⟩
  · rw [encText_eq, padding, List.append_nil] at hc
    obtain ⟨v, -, rfl⟩ := List.mem_map.mp hc
    exact ⟨fwd_mem_alphaUrl v, fwd_ne_padChar _ v⟩
  · obtain ⟨v, -, rfl⟩ := List.mem_map.mp hc
    exact fwd_mem_alphaStd v
  · rw [encText_eq, padding, List.append_nil, List.map_map]
    exact List.map_congr_left fun v _ => fwd_urlSafe_eq v
  · obtain ⟨body, v, hbody, hv⟩ := exists_last_sextet hs
    exact ⟨body.map (fwd var), v, by rw [encText_eq, hbody, List.map_append]; rfl, hv⟩

end Sys2Proof.Machine
end

section
/-! SUPPORT. A decode of an encoded text: in the same variant (43_decoder.md R118) and in the other (R84). -/

namespace Sys2Proof.Machine

/-- The four values of a group, shifted in in order, are the group (R64, R68). -/
theorem foldl_shiftIn_groupSextets (g : Group) : (groupSextets g).foldl shiftIn 0 = g := by
  have hg := g.isLt
  apply BitVec.eq_of_toNat_eq
  simp only [groupSextets, List.foldl_cons, List.foldl_nil, shiftIn_toNat, toNat_field]
  simp
  omega

theorem groupBytes_append (b0 b1 b2 : Byte) : groupBytes (b0 ++ b1 ++ b2) = [b0, b1, b2] := by
  have h0 := b0.isLt
  have h1 := b1.isLt
  have h2 := b2.isLt
  have hg : (b0 ++ b1 ++ b2 : Group).toNat = (b0.toNat * 2 ^ 8 + b1.toNat) * 2 ^ 8 + b2.toNat := by
    refine (toNat_cat (b0 ++ b1) b2).trans ?_
    rw [toNat_cat]
  unfold groupBytes
  congr 1
  · apply BitVec.eq_of_toNat_eq
    rw [toNat_field, hg]
    omega
  congr 1
  · apply BitVec.eq_of_toNat_eq
    rw [toNat_field, hg]
    omega
  congr 1
  · apply BitVec.eq_of_toNat_eq
    rw [toNat_field, hg]
    omega

/-- Settles O27: the four values are the group, and its bytes are the three. -/
theorem decodeGroupInvertsEncodeGroup : Obligations.DecodeGroupInvertsEncodeGroup := by
  intro b0 b1 b2
  exact (congrArg groupBytes (foldl_shiftIn_groupSextets _)).trans (groupBytes_append b0 b1 b2)

/-- The loop on a full group of characters emits the group's bytes (R113, R114). -/
theorem decLoop_group (var : Variant) (b0 b1 b2 : Byte) (r t : List Byte) :
    decLoop var ((groupSextets (b0 ++ b1 ++ b2)).map (fwd var) ++ r) t 0 0 = decLoop var r (t ++ [b0, b1, b2]) 0 0 := by
  rw [← decodeGroupInvertsEncodeGroup b0 b1 b2]
  simp only [groupSextets, List.map_cons, List.map_nil, List.cons_append, List.nil_append, List.foldl_cons,
    List.foldl_nil]
  rw [decLoop_keep (classify_fwd var _) (by decide), decLoop_keep (classify_fwd var _) (by decide),
    decLoop_keep (classify_fwd var _) (by decide), decLoop_fill (classify_fwd var _)]
  rfl

/-- The one byte of a tail of two values is the byte they hold (R65, R69). -/
theorem tailBytes₂_tailSextets₁ (b0 : Byte) : tailBytes₂ ((tailSextets₁ b0).foldl shiftIn 0) = [b0] := by
  have h0 := b0.isLt
  simp only [tailSextets₁, List.foldl_cons, List.foldl_nil, tailBytes₂]
  congr 1
  apply BitVec.eq_of_toNat_eq
  simp only [toNat_field, shiftIn_toNat, toNat_cat]
  simp
  omega

/-- The two bytes of a tail of three values are the bytes they hold (R66, R69). -/
theorem tailBytes₃_tailSextets₂ (b0 b1 : Byte) : tailBytes₃ ((tailSextets₂ b0 b1).foldl shiftIn 0) = [b0, b1] := by
  have h0 := b0.isLt
  have h1 := b1.isLt
  simp only [tailSextets₂, List.foldl_cons, List.foldl_nil, tailBytes₃]
  congr 1
  · apply BitVec.eq_of_toNat_eq
    simp only [toNat_field, shiftIn_toNat, toNat_cat]
    simp
    omega
  congr 1
  apply BitVec.eq_of_toNat_eq
  simp only [toNat_field, shiftIn_toNat, toNat_cat]
  simp
  omega

/-- Padding is nothing, or begins with `'='`. -/
theorem padding_cases (var : Variant) (k : Nat) : padding var k = [] ∨ ∃ u, padding var k = padChar :: u := by
  cases var with
  | urlSafe => exact .inl rfl
  | standard =>
    cases k with
    | zero => exact .inl rfl
    | succ k => exact .inr ⟨List.replicate k padChar, rfl⟩

/-- The loop on the text of `s` gives `s` back. -/
theorem decLoop_encText (var : Variant) (s t : List Byte) : decLoop var (encText var s) t 0 0 = .ok (t ++ s) := by
  induction s using encText.induct generalizing t with
  | case1 => rw [List.append_nil]; rfl
  | case2 b0 =>
    refine (decLoop_append_end (padding_cases var 2) _ t 0 0).trans ((decLoop_tail₂ var _ _ t).trans ?_)
    rw [← tailBytes₂_tailSextets₁ b0]
    rfl
  | case3 b0 b1 =>
    refine (decLoop_append_end (padding_cases var 1) _ t 0 0).trans ((decLoop_tail₃ var _ _ _ t).trans ?_)
    rw [← tailBytes₃_tailSextets₂ b0 b1]
    rfl
  | case4 b0 b1 b2 rest ih =>
    rw [encText, decLoop_group, ih]
    simp

/-- An encoded text has a length that a decode in the same variant takes. -/
theorem encText_length_ok (var : Variant) (s : List Byte) :
    ¬ (var = .standard ∧ (encText var s).length % 4 ≠ 0) := by
  rintro ⟨rfl, h⟩
  rw [encText_standard_length] at h
  omega

theorem encText_length_ne_zero (var : Variant) {s : List Byte} (h : s.length ≠ 0) : (encText var s).length ≠ 0 := by
  cases var
  · rw [encText_standard_length]; omega
  · rw [encText_urlSafe_length]; omega

/-- R118: a decode of an encoded text in the same variant. -/
theorem dec_encText (var : Variant) {s : List Byte} (h : s.length ≠ 0) : dec var (encText var s) = .ok s := by
  rw [dec_eq_decLoop (encText_length_ne_zero var h) (encText_length_ok var s), decLoop_encText]
  rfl

theorem enc_ok_iff {var : Variant} {s t : List Byte} : enc var s = .ok t ↔ s.length ≠ 0 ∧ t = encText var s := by
  by_cases h : s.length = 0
  · simp [enc_of_empty var h, h]
  · rw [enc_of_nonempty var h, Except.ok.injEq, and_iff_right h, eq_comm]

theorem dec_of_enc {var : Variant} {s t : List Byte} (h : enc var s = .ok t) : dec var t = .ok s := by
  obtain ⟨h0, rfl⟩ := enc_ok_iff.mp h
  exact dec_encText var h0

/-! The other variant. -/

theorem scanned_append_end {x rest : List Byte} (hx : ∀ c ∈ x, c ≠ padChar)
    (hrest : rest = [] ∨ ∃ u, rest = padChar :: u) : scanned (x ++ rest) = x := by
  have hx' : ∀ c ∈ x, (c != padChar) = true := fun c hc => by simpa using hx c hc
  rw [scanned, List.takeWhile_append_of_pos hx']
  rcases hrest with rfl | ⟨u, rfl⟩ <;> simp

/-- A decode scans the characters of the values of an encoded text. -/
theorem scanned_encText (var : Variant) (s : List Byte) : scanned (encText var s) = (sextets s).map (fwd var) := by
  rw [encText_eq]
  refine scanned_append_end (fun c hc => ?_) (padding_cases var _)
  obtain ⟨v, -, rfl⟩ := List.mem_map.mp hc
  exact fwd_ne_padChar var v

/-- One of the four characters that are of one variant alone. -/
def variantSpecific (c : Byte) : Prop := c = 0x2B ∨ c = 0x2F ∨ c = 0x2D ∨ c = 0x5F

theorem not_variantSpecific_padChar : ¬ variantSpecific padChar := by
  unfold variantSpecific
  decide

theorem not_variantSpecific_fwd (var : Variant) {v : Sextet} (h : v.toNat ≤ 61) : ¬ variantSpecific (fwd var v) := by
  unfold variantSpecific
  revert v
  cases var <;> decide

theorem OtherVariantOnly.variantSpecific {var : Variant} {c : Byte} (h : OtherVariantOnly var c) :
    variantSpecific c := by
  rcases h with ⟨-, h | h⟩ | ⟨-, h | h⟩ <;> simp [Machine.variantSpecific, h]

/-- R84: a character of one variant is bad under the other exactly if it is one of the four. -/
theorem isBad_fwd_iff {var var' : Variant} (hne : var ≠ var') (v : Sextet) :
    isBad var' (fwd var v) = true ↔ variantSpecific (fwd var v) := by
  by_cases h : v.toNat ≤ 61
  · have hgood : isBad var' (fwd var v) = false := by
      rw [fwd_eq_fwd var var' h, isBad, classify_fwd]
    exact iff_of_false (by simp [hgood]) (not_variantSpecific_fwd var h)
  · have ho := other_of_fwd hne (v := v) (by omega)
    exact iff_of_true (isBad_iff.mpr (.inl (classify_of_other ho))) ho.variantSpecific

/-- The number of values is never one more than a multiple of 4 (R97). -/
theorem sextets_length_mod (s : List Byte) : (sextets s).length % 4 ≠ 1 := by
  rw [sextets_length']
  omega

/-- A text has one of the four characters exactly if its values have. -/
theorem encText_no_variantSpecific_iff (var : Variant) (s : List Byte) :
    (∀ c ∈ encText var s, ¬ variantSpecific c) ↔ ∀ v ∈ sextets s, ¬ variantSpecific (fwd var v) := by
  rw [encText_eq]
  constructor
  · exact fun h v hv => h _ (List.mem_append_left _ (List.mem_map_of_mem hv))
  · intro h c hc
    rcases List.mem_append.mp hc with hc | hc
    · obtain ⟨v, hv, rfl⟩ := List.mem_map.mp hc
      exact h v hv
    · cases var with
      | urlSafe => contradiction
      | standard => rw [List.eq_of_mem_replicate hc]; exact not_variantSpecific_padChar

/-- R84: which encoded text decodes under the other variant. -/
theorem dec_encText_other {var var' : Variant} (hne : var ≠ var') {s : List Byte} (h0 : s.length ≠ 0)
    (hl : ¬ (var' = .standard ∧ (encText var s).length % 4 ≠ 0)) :
    (∃ u, dec var' (encText var s) = .ok u) ↔ ∀ c ∈ encText var s, ¬ variantSpecific c := by
  rw [exists_dec_ok_iff (encText_length_ne_zero var h0) hl, scanned_encText, List.length_map,
    and_iff_left (sextets_length_mod s), List.forall_mem_map, encText_no_variantSpecific_iff]
  exact forall₂_congr fun v _ => by rw [← isBad_fwd_iff hne, Bool.not_eq_true]

/-- Settles O37: index by index, and then for a text through its values; a length that Standard refuses fails before the
scan. -/
theorem crossVariantLaw : Obligations.CrossVariantLaw := by
  intro var var' hne
  refine ⟨fun i hi => classify_of_other (other_of_fwd hne hi), fun i hi => ?_, fun s t ht => ?_⟩
  · rw [fwd_eq_fwd var var' hi, classify_fwd]
  · obtain ⟨h0, rfl⟩ := enc_ok_iff.mp ht
    have hspec : ∀ c : Byte, (c ≠ 0x2B ∧ c ≠ 0x2F ∧ c ≠ 0x2D ∧ c ≠ 0x5F) ↔ ¬ variantSpecific c := fun c => by
      simp only [variantSpecific, not_or, ne_eq]
    simp only [hspec]
    by_cases hl : var' = .standard ∧ (encText var s).length % 4 ≠ 0
    · rw [dec_of_bad_length (encText_length_ne_zero var h0) hl]
      exact iff_of_false (by simp) fun h => hl.2 (h.2 hl.1)
    · rw [dec_encText_other hne h0 hl, and_iff_left fun hv => not_not.mp fun hm => hl ⟨hv, hm⟩]

end Sys2Proof.Machine
end

section
/-! SUPPORT. A command from its issue to the state it ends in, for all four commands (41_engine.md R93). -/

namespace Sys2Proof.Machine

/-- How a command `i` on the input of `s` ends: the value it shows, what it leaves, and where it has written. -/
structure CommandEnds (i : Instr) (s t : State) : Prop where
  shows  : Shows t (codec i s.input)
  frame  : EngineFrame { s with cmd := encodeWord i } t
  writes : ∃ out, t.wptr = out.length ∧ t.obuf = Memory.writeAll s.obuf 0 out ∧ t.outLen ≤ out.length

/-- The end of a decode shows the value of the loop of R105. -/
theorem DecodeEnds.shows {w : CmdWord} {s t : State} {out : List Byte} {r : Except InvalidInput (List Byte)}
    (h : DecodeEnds (issued w s) t out r) : Shows t r := by
  obtain ⟨hwptr, hobuf, -, hend⟩ := h
  cases r with
  | error e => exact hend
  | ok o =>
    obtain ⟨rfl, hp, hr, he, hout⟩ := hend
    exact shows_ok_of_written hp hr he (hout.trans (hwptr.trans (Nat.zero_add _))) hobuf

theorem DecodeEnds.commandFrame {w : CmdWord} {s t : State} {out : List Byte}
    {r : Except InvalidInput (List Byte)} (h : DecodeEnds (issued w s) t out r) :
    EngineFrame { s with cmd := w } t := by
  obtain ⟨-, -, hframe, -⟩ := h
  exact .trans (issued_frame w s) hframe

theorem DecodeEnds.writes {w : CmdWord} {s t : State} {out : List Byte} {r : Except InvalidInput (List Byte)}
    (h : DecodeEnds (issued w s) t out r) :
    ∃ bs, t.wptr = bs.length ∧ t.obuf = Memory.writeAll s.obuf 0 bs ∧ t.outLen ≤ bs.length := by
  obtain ⟨hwptr, hobuf, -, hend⟩ := h
  have hlen : t.wptr = out.length := hwptr.trans (Nat.zero_add _)
  refine ⟨out, hlen, hobuf, ?_⟩
  cases r with
  | error e =>
    obtain ⟨-, -, -, hout⟩ := hend
    exact hout ▸ Nat.zero_le _
  | ok o =>
    obtain ⟨-, -, -, -, hout⟩ := hend
    exact (hout.trans hlen).le

/-- A command that ends in the state of its issue, with an error. -/
theorem commandEnds_statusError {i : Instr} {s : State} {e : InvalidInput} (h : codec i s.input = .error e) :
    CommandEnds i s (statusError e.reason e.byte (issued (encodeWord i) s)) where
  shows := by rw [h]; exact ⟨rfl, rfl, rfl, rfl⟩
  frame := .trans (issued_frame _ s) (by constructor <;> rfl)
  writes := ⟨[], rfl, rfl, Nat.le_refl _⟩

/-- R93: the engine's run from the issue of a command ends as the command's function says. -/
theorem exists_commandEnds (i : Instr) {s : State} (hn : s.inLen ≤ s.params.maxInLen) :
    ∃ t, runEngine (s.inLen + 3) (issued (encodeWord i) s) = .ok t ∧ CommandEnds i s t := by
  by_cases h0 : s.inLen = 0
  · have hval : codec i s.input = .error ⟨.emptyInput, 0x00⟩ :=
      (codec_failsWith i s.input _).mpr (if_pos ((input_length s).trans h0))
    exact ⟨_, empty_command_run h0 _, commandEnds_statusError hval⟩
  have h0' : s.input.length ≠ 0 := by rwa [input_length]
  cases hd : i.isDecode with
  | false =>
    obtain ⟨t, hrun, hp, hr, he, hwptr, hout, -, hobuf, hframe⟩ :=
      encode_command_run ((encodeWord_op i).trans hd) h0 hn
    refine ⟨t, hrun, ?_, .trans (issued_frame _ s) hframe, _, hwptr, hobuf, (hout.trans hwptr).le⟩
    rw [codec_encode hd, enc_of_nonempty _ h0']
    rw [wordVariant_encodeWord] at hwptr hobuf
    exact shows_ok_of_written hp hr he (hout.trans hwptr) hobuf
  | true =>
    by_cases hl : i.variant = .standard ∧ s.inLen % 4 ≠ 0
    · have hval : codec i s.input = .error ⟨.badLength, 0x00⟩ := by
        rw [codec_decode hd, dec_of_bad_length h0' (by rwa [input_length])]
      exact ⟨_, bad_length_run ((encodeWord_op i).trans hd) h0 (by rwa [wordVariant_encodeWord]) _,
        commandEnds_statusError hval⟩
    · obtain ⟨t, out, hrun, -, -, hends⟩ :=
        decode_command_run ((encodeWord_op i).trans hd) h0 (by rwa [wordVariant_encodeWord]) hn
      rw [wordVariant_encodeWord] at hends
      refine ⟨t, hrun, ?_, hends.commandFrame, hends.writes⟩
      rw [codec_decode hd, dec_eq_decLoop h0' (by rwa [input_length])]
      exact hends.shows

/-- What the state an issued command ends in is like. -/
theorem commandEnds_of_run {i : Instr} {s t : State} (hn : s.inLen ≤ s.params.maxInLen)
    (h : runEngine (s.inLen + 3) (issued (encodeWord i) s) = .ok t) : CommandEnds i s t := by
  obtain ⟨u, hu, hends⟩ := exists_commandEnds i hn
  rw [hu] at h
  exact Except.ok.inj h ▸ hends

theorem commandEnds_of_exec {i : Instr} {s t : State} (h : exec i s = .next t) : CommandEnds i s t := by
  obtain ⟨-, hn, hrun⟩ := exec_next_iff.mp h
  exact commandEnds_of_run hn hrun

/-- A command that may run answers the state its function describes. -/
theorem exists_exec_ends (i : Instr) {s : State} (hb : s.phase ≠ .busy) (hn : s.inLen ≤ s.params.maxInLen) :
    ∃ t, exec i s = .next t ∧ CommandEnds i s t := by
  obtain ⟨t, ht, -⟩ := exists_exec_next i hb hn
  exact ⟨t, ht, commandEnds_of_exec ht⟩

/-- Settles O9: the value by the run of the engine (`exists_commandEnds`), its error by `codec_failsWith`. -/
theorem decodeCommandsComputeDec : Obligations.DecodeCommandsComputeDec := by
  intro i s hd hb hn
  rw [← codec_decode hd]
  obtain ⟨t, ht, hshows, hframe, -⟩ := exists_exec_ends i hb hn
  exact ⟨⟨t, ht, hshows, hframe.cmd, hframe.ibuf, hframe.inLen⟩, codec_failsWith i s.input⟩

/-- Settles O12: the function fails exactly with the first cause, and the state shows the function's value. -/
theorem commandsReportTheFirstCause : Obligations.CommandsReportTheFirstCause := by
  intro i s hb hn
  obtain ⟨t, ht, hshows, -, -⟩ := exists_exec_ends i hb hn
  refine ⟨t, ht, ?_⟩
  have hfails := codec_failsWith i s.input
  cases hcause : firstCause i s.input with
  | some e =>
    rw [(hfails e).mpr hcause] at hshows
    exact hshows
  | none =>
    rw [hcause] at hfails
    obtain ⟨out, hout⟩ := hfails.exists_ok
    rw [hout] at hshows
    obtain ⟨hp, hr, he, -⟩ := hshows
    exact ⟨hp, hr, he⟩

/-- Settles O16: the engine's frame, and the bytes stored from index 0 on. -/
theorem commandFrame : Obligations.CommandFrame := by
  intro i s t h
  obtain ⟨-, hframe, out, hwptr, hobuf, -⟩ := commandEnds_of_exec h
  refine ⟨hframe, fun k => ?_, fun j hj => ?_⟩
  · simp [State.ibufByte, hframe.ibuf, hframe.epoch, hframe.inst]
  · rw [hobuf, Memory.read_writeAll_outside]
    omega

/-- Two states that show the same value look alike to the host. -/
theorem Shows.same_look {t₁ t₂ : State} {r : Except InvalidInput (List Byte)} (h₁ : Shows t₁ r) (h₂ : Shows t₂ r) :
    statusWord t₁ = statusWord t₂ ∧ t₁.outLen = t₂.outLen ∧ t₁.errByte = t₂.errByte ∧ t₁.result = t₂.result := by
  cases r with
  | ok out =>
    obtain ⟨hp₁, hr₁, he₁, ho₁, hres₁⟩ := h₁
    obtain ⟨hp₂, hr₂, he₂, ho₂, hres₂⟩ := h₂
    exact ⟨by rw [statusWord, statusWord, hp₁, hr₁, hp₂, hr₂], ho₁.trans ho₂.symm, he₁.trans he₂.symm,
      hres₁.trans hres₂.symm⟩
  | error e =>
    obtain ⟨hp₁, hr₁, he₁, ho₁⟩ := h₁
    obtain ⟨hp₂, hr₂, he₂, ho₂⟩ := h₂
    exact ⟨by rw [statusWord, statusWord, hp₁, hr₁, hp₂, hr₂], ho₁.trans ho₂.symm, he₁.trans he₂.symm,
      by simp [State.result, ho₁, ho₂]⟩

/-- Settles O15: both states show the value of one function on one input. -/
theorem resultDependsOnlyOnTheInput : Obligations.ResultDependsOnlyOnTheInput := by
  intro i s₁ s₂ t₁ t₂ hlen hbytes h₁ h₂
  have hinput : s₁.input = s₂.input := by
    rw [State.input, State.input, ← hlen]
    exact List.map_congr_left fun k hk => hbytes k (List.mem_range.mp hk)
  exact (commandEnds_of_exec h₁).shows.same_look (hinput ▸ (commandEnds_of_exec h₂).shows)

/-- Settles O13: the text shown has the length of R97. -/
theorem encodeOutputLength : Obligations.EncodeOutputLength := by
  intro i s hd hb h1 hn
  obtain ⟨t, ht, hshows, -, -⟩ := exists_exec_ends i hb hn
  rw [codec_encode hd, enc_of_nonempty _ (by rw [input_length]; omega)] at hshows
  obtain ⟨hp, -, -, hout, -⟩ := hshows
  have hle := encText_length_le i.variant s.input
  have hmax : s.params.maxOutLen = 4 * ((s.params.maxInLen + 2) / 3) := rfl
  have hpar : t.params = s.params := (commandEnds_of_exec ht).frame.params
  refine ⟨t, ht, hp, ?_, fun hv => ?_, fun hv => ?_⟩
  · rw [input_length] at hle
    omega
  · rw [hv, encText_standard_length, input_length] at hout
    omega
  · rw [hv, encText_urlSafe_length, input_length] at hout
    refine ⟨hout.trans (valueCount_eq _).symm, hout, ?_⟩
    rcases (by omega : s.inLen % 3 = 0 ∨ s.inLen % 3 = 1 ∨ s.inLen % 3 = 2) with h | h | h <;> rw [h] <;> omega

end Sys2Proof.Machine
end

section
/-! SUPPORT. The values a decode accepts and the bytes it emits, at every step (43_decoder.md R106, R112). -/

namespace Sys2Proof.Machine

/-- How many characters of the input are accepted: those before the first that is no value. -/
def accepted (s : State) : Nat := (s.input.takeWhile (isValue s.variant)).length

theorem EngineFrame.accepted {s t : State} (h : EngineFrame s t) : accepted t = accepted s := by
  rw [Machine.accepted, Machine.accepted, h.input, h.variant]

theorem accepted_le (s : State) : accepted s ≤ s.inLen := by
  have := (List.takeWhile_prefix (l := s.input) (isValue s.variant)).length_le
  rwa [input_length] at this

/-- Behind the characters accepted so far, those accepted are counted from there. -/
theorem length_takeWhile_eq_add {p : Byte → Bool} {l : List Byte} {k : Nat} (h : k ≤ (l.takeWhile p).length) :
    (l.takeWhile p).length = k + ((l.drop k).takeWhile p).length := by
  induction l generalizing k with
  | nil =>
    obtain rfl : k = 0 := Nat.le_zero.mp h
    rfl
  | cons c l ih =>
    cases k with
    | zero => exact (Nat.zero_add _).symm
    | succ k =>
      by_cases hc : p c = true
      · rw [List.takeWhile_cons_of_pos hc, List.length_cons] at h ⊢
        rw [List.drop_succ_cons, ih (Nat.le_of_succ_le_succ h)]
        omega
      · rw [List.takeWhile_cons_of_neg hc] at h
        contradiction

/-- A value at `POS` is accepted. -/
theorem succ_le_accepted {s : State} {v : Sextet} (h : s.pos ≤ accepted s) (hp : s.pos < s.inLen)
    (hc : classify s.variant (s.ibufByte s.pos) = .value v) : s.pos + 1 ≤ accepted s := by
  rw [accepted, length_takeWhile_eq_add h, input_drop_cons hp,
    List.takeWhile_cons_of_pos (by simp [isValue, hc]), List.length_cons]
  omega

/-- A `'='` at `POS` ends the characters accepted. -/
theorem accepted_eq_of_pad {s : State} (h : s.pos ≤ accepted s) (hp : s.pos < s.inLen)
    (hc : classify s.variant (s.ibufByte s.pos) = .pad) : accepted s = s.pos := by
  rw [accepted, length_takeWhile_eq_add h, input_drop_cons hp, List.takeWhile_cons_of_neg (by simp [isValue, hc])]
  rfl

/-- How far a decode that accepts `m` characters is: what it has accumulated and emitted, by stage. -/
structure DecodeProgress (m : Nat) (s : State) : Prop where
  op       : s.isDecode = true
  accepted : accepted s = m
  check    : s.phase = .busy → s.estage = .check → s.pos = 0 ∧ s.dshift = 0 ∧ s.wptr = 0
  scan     : s.phase = .busy → s.estage = .scan → s.pos ≤ m ∧ s.dshift.toNat = s.pos % 4 ∧ s.wptr = 3 * (s.pos / 4)
  tail     : s.phase = .busy → s.estage = .tail → s.dshift.toNat = m % 4 ∧ s.wptr = 3 * (m / 4)
  done     : s.phase = .done → m % 4 ≠ 1 ∧ s.outLen = 3 * m / 4
  bound    : s.wptr ≤ 3 * m / 4

theorem decodeProgress_issued {w : CmdWord} {s : State} (hd : w.getLsbD 0 = true) :
    DecodeProgress (accepted (issued w s)) (issued w s) where
  op := hd
  accepted := rfl
  check _ _ := ⟨rfl, rfl, rfl⟩
  scan _ := nofun
  tail _ := nofun
  done := nofun
  bound := Nat.zero_le _

/-- Every move of the decoder keeps its progress. -/
theorem EngineMove.decodeProgress {m : Nat} {s t : State} (hb : s.phase = .busy) (h : DecodeProgress m s)
    (hm : EngineMove s t) : DecodeProgress m t := by
  have hacc : accepted t = m := hm.frame.accepted.trans h.accepted
  have hop : t.isDecode = true := hm.frame.isDecode.trans h.op
  have hbound := h.bound
  have hscan := h.scan hb
  have hdone : s.phase ≠ .done := by simp [hb]
  rw [← h.accepted] at hscan
  cases hm with
  | empty | badLength | disallowed | invalid | badShift =>
    exact ⟨hop, hacc, nofun, nofun, nofun, nofun, hbound⟩
  | toScan hs =>
    obtain ⟨hp, hk, hw⟩ := h.check hb hs
    exact ⟨hop, hacc, nofun, fun _ _ => by simp [hp, hk, hw], nofun, (absurd · hdone), hbound⟩
  | hold hs hd | group hs hd =>
    rw [h.op] at hd
    contradiction
  | pad hs hd hp hpm hcl =>
    obtain ⟨hle, hk, hw⟩ := hscan hs
    have hpos := accepted_eq_of_pad hle hp hcl
    rw [h.accepted] at hpos
    exact ⟨hop, hacc, nofun, nofun, fun _ _ => by subst hpos; exact ⟨hk, hw⟩, (absurd · hdone), hbound⟩
  | keep v hs hd hp hpm hcl h3 =>
    obtain ⟨hle, hk, hw⟩ := hscan hs
    have hpos := succ_le_accepted hle hp hcl
    rw [h.accepted] at hpos
    have h3' : s.dshift.toNat ≠ 3 := fun h => h3 (BitVec.eq_of_toNat_eq h)
    have hk' : (s.dshift + 1).toNat = (s.pos + 1) % 4 := by
      rw [BitVec.toNat_add]
      simp; omega
    have hw' : s.wptr = 3 * ((s.pos + 1) / 4) := by omega
    exact ⟨hop, hacc, fun _ hs' => by simp [hs] at hs', fun _ _ => ⟨hpos, hk', hw'⟩, fun _ hs' => by simp [hs] at hs',
      (absurd · hdone), hbound⟩
  | fill v hs hd hp hpm hcl h3 hroom =>
    obtain ⟨hle, hk, hw⟩ := hscan hs
    have hpos := succ_le_accepted hle hp hcl
    rw [h.accepted] at hpos
    have h3' : s.dshift.toNat = 3 := congrArg BitVec.toNat h3
    have hk' : 0 = (s.pos + 1) % 4 := by omega
    have hw' : s.wptr + 3 = 3 * ((s.pos + 1) / 4) := by omega
    exact ⟨hop, hacc, fun _ hs' => by simp [hs] at hs', fun _ _ => ⟨hpos, hk', hw'⟩, fun _ hs' => by simp [hs] at hs',
      (absurd · hdone), by simp only; omega⟩
  | exhausted hs hp =>
    obtain ⟨hle, hk, hw⟩ := hscan hs
    have hpos : m = s.pos := by
      have := accepted_le s
      have := h.accepted
      omega
    exact ⟨hop, hacc, nofun, nofun, fun _ _ => by rw [hpos]; exact ⟨hk, hw⟩, (absurd · hdone), hbound⟩
  | finish bytes hs hfin hroom =>
    obtain ⟨hk, hw⟩ := h.tail hb hs
    have hm1 : m % 4 ≠ 1 ∧ s.wptr + bytes.length = 3 * m / 4 := by
      rcases hfin with ⟨hd, -⟩ | ⟨-, ⟨h0, rfl⟩ | ⟨h2, rfl⟩ | ⟨h3, rfl⟩⟩
      · rw [h.op] at hd
        contradiction
      · rw [h0] at hk
        change 0 = m % 4 at hk
        exact ⟨by omega, by simp; omega⟩
      · rw [h2] at hk
        change 2 = m % 4 at hk
        exact ⟨by omega, by simp; omega⟩
      · rw [h3] at hk
        change 3 = m % 4 at hk
        exact ⟨by omega, by simp; omega⟩
    exact ⟨hop, hacc, nofun, nofun, nofun, fun _ => hm1, hm1.2.le⟩

/-- The table of R106, as a quotient. -/
theorem byteCount_eq {m : Nat} (h : m % 4 ≠ 1) : 3 * (m / 4) + [0, 0, 1, 2].getD (m % 4) 0 = 3 * m / 4 := by
  rcases (by omega : m % 4 = 0 ∨ m % 4 = 2 ∨ m % 4 = 3) with h | h | h <;> simp [h] <;> omega

/-- Settles O14: by the progress of the decoder along its run. -/
theorem decodeOutputLength : Obligations.DecodeOutputLength := by
  intro i s t hd h m
  obtain ⟨-, hn, hrun⟩ := exec_next_iff.mp h
  have hm : accepted (issued (encodeWord i) s) = m := by
    rw [accepted, issued_input, State.variant]
    show (s.input.takeWhile (isValue (wordVariant (encodeWord i)))).length = m
    rw [wordVariant_encodeWord]
  have hprogress : DecodeProgress m t :=
    runEngine_keeps (P := DecodeProgress m) (fun _ _ hb hp hmove => hmove.decodeProgress hb hp)
      (hm ▸ decodeProgress_issued ((encodeWord_op i).trans hd)) hrun
  have hle : m ≤ s.inLen := hm ▸ accepted_le (issued (encodeWord i) s)
  have hmax := maxInLen_le_maxOutLen s.params
  have hbound := hprogress.bound
  refine ⟨fun hdone => ?_, hbound, by omega, hle, by omega⟩
  obtain ⟨h1, hout⟩ := hprogress.done hdone
  exact ⟨h1, hout.trans (byteCount_eq h1).symm, hout⟩

end Sys2Proof.Machine
end

section
/-! SUPPORT. The encoder step by step: how many steps it takes, and what `OBUF` holds meanwhile (42_encoder.md R103;
95_test_vectors.md section 3). -/

namespace Sys2Proof.Machine

/-- On an input that is not empty every step of the encoder is exactly one of those left. -/
theorem EngineMove.remaining_encode {s t : State} (hb : s.phase = .busy) (hd : s.isDecode = false) (h0 : s.inLen ≠ 0)
    (h : BusyInv s) (hm : EngineMove s t) : remaining t + 1 = remaining s := by
  obtain ⟨-, hp, he⟩ := h
  cases hm with
  | empty _ hz => exact absurd hz h0
  | badLength _ hd' | pad _ hd' | disallowed _ hd' | invalid _ hd' | keep _ _ hd' | fill _ _ hd' | badShift _ hd' =>
    rw [hd] at hd'
    contradiction
  | toScan hs =>
    obtain ⟨hpos, -⟩ := (engineInv_check hs).mp he
    have ht := remaining_scan (s := { s with estage := .scan }) hb rfl
    rw [remaining_check hb hs, ht]
    simp only [hpos]
    omega
  | hold hs _ hlt | group hs _ hlt =>
    rw [remaining_scan hb hs, remaining_scan (by exact hb) (by exact hs)]
    simp only
    omega
  | exhausted hs hge =>
    have ht := remaining_tail (s := { s with estage := .tail }) hb rfl
    rw [remaining_scan hb hs, ht]
    omega
  | finish _ hs =>
    rw [remaining_tail hb hs, remaining_of_not_busy (by simp)]

/-- So it is BUSY for as many steps as were left. -/
theorem runEngine_encode_busy {k : Nat} {s : State} (hb : s.phase = .busy) (hd : s.isDecode = false)
    (h0 : s.inLen ≠ 0) (h : BusyInv s) (hk : k < remaining s) : ∃ t, runEngine k s = .ok t ∧ t.phase = .busy := by
  induction k generalizing s with
  | zero => exact ⟨s, rfl, hb⟩
  | succ k ih =>
    obtain ⟨u, hu⟩ := exists_engineStep hb h
    have hm := engineStep_ok hb hu
    have hrem := hm.remaining_encode hb hd h0 h
    have hbu : u.phase = .busy := by
      by_contra hne
      rw [remaining_of_not_busy hne] at hrem
      omega
    rw [runEngine_succ_busy hb hu]
    exact ih hbu (hm.frame.isDecode.trans hd) (hm.frame.inLen.symm ▸ h0) (hm.busyInv h hbu) (by omega)

/-- Settles O20. -/
theorem encodeTakesExactlyTheStepBound : Obligations.EncodeTakesExactlyTheStepBound := by
  intro i s s₁ hd h h1
  obtain ⟨-, hn, rfl⟩ := issue_ok_iff.mp h
  have hop := (encodeWord_op i).trans hd
  refine ⟨fun k hk => ?_, ?_⟩
  · refine runEngine_encode_busy (s := issued (encodeWord i) s) rfl hop (Nat.ne_of_gt h1) (busyInv_issued _ hn) ?_
    rwa [remaining_check rfl rfl]
  · obtain ⟨t, hrun, hp, -⟩ := encode_command_run hop (Nat.ne_of_gt h1) hn
    exact ⟨t, hrun, hp⟩

/-- Bytes that are written stay as they are while the engine runs on. -/
theorem runEngine_keeps_written {k : Nat} {s t : State} (h : runEngine k s = .ok t) :
    s.wptr ≤ t.wptr ∧ ∀ j < s.wptr, Memory.read t.obuf j = Memory.read s.obuf j := by
  refine runEngine_keeps (P := fun u => s.wptr ≤ u.wptr ∧ ∀ j < s.wptr, Memory.read u.obuf j = Memory.read s.obuf j)
    (fun u v _ ⟨hle, hread⟩ hm => ?_) ⟨Nat.le_refl _, fun _ _ => rfl⟩ h
  have hacc := hm.access
  exact ⟨hle.trans hacc.wptr_le, fun j hj => (hacc.outside j (.inl (Nat.lt_of_lt_of_le hj hle))).trans (hread j hj)⟩

/-- Settles O25: what is below `WPTR` after `k` steps is still there at the end of the command, where `OBUF` holds the
whole text. -/
theorem encoderOutputIsAPrefixOfTheResult : Obligations.EncoderOutputIsAPrefixOfTheResult := by
  intro i s s₁ t k hd h hk
  obtain ⟨-, hn, rfl⟩ := issue_ok_iff.mp h
  have hop := (encodeWord_op i).trans hd
  have hend : ∃ u, runEngine (s.inLen + 3) (issued (encodeWord i) s) = .ok u ∧ u.phase ≠ .busy ∧
      u.wptr ≤ (encText i.variant s.input).length ∧
      ∀ j < u.wptr, Memory.read u.obuf j = (encText i.variant s.input)[j]? := by
    by_cases h0 : s.inLen = 0
    · exact ⟨_, empty_command_run h0 _, by simp, Nat.zero_le _, nofun⟩
    · obtain ⟨u, hrun, hp, -, -, hwptr, -, -, hobuf, -⟩ := encode_command_run hop h0 hn
      rw [wordVariant_encodeWord] at hwptr hobuf
      refine ⟨u, hrun, by simp [hp], hwptr.le, fun j hj => ?_⟩
      rw [hobuf, Memory.read_writeAll, if_pos (by omega), Nat.sub_zero]
  obtain ⟨u, hrun, hnb, hwu, hread⟩ := hend
  have hlater : runEngine (s.inLen + 3) t = .ok u := by
    rw [← runEngine_add hk, Nat.add_comm]
    exact runEngine_mono hrun hnb k
  obtain ⟨hle, hkeep⟩ := runEngine_keeps_written hlater
  exact ⟨hle.trans hwu, fun j hj => (hkeep j hj).symm.trans (hread j (Nat.lt_of_lt_of_le hj hle))⟩

end Sys2Proof.Machine
end

section
/-! SUPPORT. The result a host reads, and how long it lasts (10_state.md R38; 70_reset_and_hazards.md R147). -/

namespace Sys2Proof.Machine

/-- What a host read of `OBUF` returns depends on few registers. -/
theorem readObuf_fst (j : Nat) (s : State) :
    (readObuf j s).1 = if s.phase = .done ∧ j < s.outLen then
      (Memory.read s.obuf j).getD (Config.anyObufByte s.inst s.draws) else Config.anyObufByte s.inst s.draws := by
  unfold readObuf
  split <;> rfl

/-- Every byte below `OUT_LEN` is a result byte that has been written. -/
def Readable (s : State) : Prop := ∀ j < s.outLen, s.phase = .done ∧ (Memory.read s.obuf j).isSome

theorem Readable.readObuf_eq {s t : State} (h : Readable s) (hp : t.phase = s.phase) (ho : t.outLen = s.outLen)
    (hm : t.obuf = s.obuf) {j : Nat} (hj : j < s.outLen) : (readObuf j t).1 = (readObuf j s).1 := by
  obtain ⟨hd, hw⟩ := h j hj
  obtain ⟨b, hb⟩ := Option.isSome_iff_exists.mp hw
  rw [readObuf_fst, readObuf_fst, hp, ho, hm, hb, if_pos ⟨hd, hj⟩, if_pos ⟨hd, hj⟩]
  rfl

/-- So the result depends on `PHASE`, `OUT_LEN` and `OBUF` alone. -/
theorem Readable.result_eq {s t : State} (h : Readable s) (hp : t.phase = s.phase) (ho : t.outLen = s.outLen)
    (hm : t.obuf = s.obuf) : t.result = s.result := by
  rw [State.result, State.result, ho]
  exact List.map_congr_left fun j hj => h.readObuf_eq hp ho hm (List.mem_range.mp hj)

/-- In a state of the invariant in which no command runs, the result is readable. -/
theorem State.Inv.readable {s : State} (h : s.Inv) (hb : s.phase ≠ .busy) : Readable s := by
  intro j hj
  have hstatus := h.status
  cases hp : s.phase <;> simp only [StatusInv, hp] at hstatus
  case idle | error => omega
  case busy => exact absurd hp hb
  case done => exact ⟨rfl, h.written j (by omega)⟩

/-- An action that writes neither `CMD` nor reset leaves the result registers and `OBUF` as they are. -/
theorem HostMove.keeps_result {a : HostAction} {s t : State} (h : HostMove s a t) (ha : a.endsResult = false) :
    t.phase = s.phase ∧ t.reason = s.reason ∧ t.outLen = s.outLen ∧ t.errByte = s.errByte ∧ t.obuf = s.obuf := by
  cases h with
  | writeCmd | command | assertReset => contradiction
  | _ => exact ⟨rfl, rfl, rfl, rfl, rfl⟩

theorem State.ended.not_busy {s : State} (h : s.ended) : s.phase ≠ .busy := by
  rcases h with h | h <;> simp [h]

/-- Settles O47: with no command BUSY the engine has no move, and of the host's moves only an issue and reset change
what the result is read from. -/
theorem resultLastsUntilIssueOrReset : Obligations.ResultLastsUntilIssueOrReset := by
  refine ⟨fun s t h hend hstep hact => ?_, fun w s t h => ?_, fun s j hb => ?_⟩
  · have hkeep : t.phase = s.phase ∧ t.reason = s.reason ∧ t.outLen = s.outLen ∧ t.errByte = s.errByte ∧
        t.obuf = s.obuf := by
      cases step_next hstep with
      | engine t _ hb _ => exact absurd hb hend.not_busy
      | host a rest t hm hs hmove => exact hmove.keeps_result (hact hm a rest hs)
      | pass => exact ⟨rfl, rfl, rfl, rfl, rfl⟩
    obtain ⟨hp, hr, ho, he, hm⟩ := hkeep
    exact ⟨by rw [statusWord, statusWord, hp, hr], ho, he, (h.readable hend.not_busy).result_eq hp ho hm⟩
  · obtain ⟨-, -, rfl⟩ := issue_ok_iff.mp h
    rfl
  · rw [readObuf_of_not_done (by simp [hb])]

/-- The end of a command is readable. -/
theorem CommandEnds.readable {i : Instr} {s t : State} (h : CommandEnds i s t) : Readable t := by
  obtain ⟨hshows, -, out, -, hobuf, hle⟩ := h
  intro j hj
  refine ⟨?_, ?_⟩
  · revert hshows
    cases codec i s.input with
    | ok o => exact fun hs => hs.1
    | error e =>
      rintro ⟨-, -, -, ho⟩
      omega
  · rw [hobuf, Memory.read_writeAll, if_pos (by omega), List.getElem?_eq_getElem (by omega)]
    rfl

theorem Shows.ended {t : State} {r : Except InvalidInput (List Byte)} (h : Shows t r) : t.ended := by
  cases r with
  | ok out => exact .inl h.1
  | error e => exact .inr h.1

/-- Settles O28: as functions by `dec_of_enc`; in hardware the encode shows the text, and the decode its value. -/
theorem roundTrip : Obligations.RoundTrip := by
  refine ⟨fun var s t => dec_of_enc, fun i j s t u hi hj hvar ht hdone hb hn hinput => ?_⟩
  have hshows := (commandEnds_of_exec ht).shows
  rw [codec_encode hi] at hshows
  have henc : enc i.variant s.input = .ok t.result := by
    cases hval : enc i.variant s.input with
    | error e =>
      rw [hval] at hshows
      rw [hshows.1] at hdone
      contradiction
    | ok out =>
      rw [hval] at hshows
      obtain ⟨-, -, -, -, hres⟩ := hshows
      rw [hres]
  obtain ⟨v, hv, hends, -, -⟩ := exists_exec_ends j hb hn
  rw [codec_decode hj, hvar, hinput, dec_of_enc henc] at hends
  obtain ⟨hp, -, -, -, hres⟩ := hends
  exact ⟨v, hv, hp, hres⟩

end Sys2Proof.Machine
end

section
/-! SUPPORT. A command step by step, whoever moves when (41_engine.md R93, R95). -/

namespace Sys2Proof.Machine

/-! Steps of the machine. -/

theorem steps_succ {s t : State} (h : step s = .next t) (k : Nat) : steps (k + 1) s = steps k t := by
  rw [steps, h]

theorem steps_one (s : State) : steps 1 s = step s := by
  rw [steps]
  cases step s <;> rfl

theorem steps_add {k : Nat} {s t : State} (h : steps k s = .next t) (j : Nat) : steps (k + j) s = steps j t := by
  induction k generalizing s with
  | zero =>
    cases h
    rw [Nat.zero_add]
  | succ k ih =>
    cases hs : step s with
    | next u =>
      rw [steps_succ hs] at h
      rw [Nat.succ_add, steps_succ hs, ih h]
    | fault f => simp [steps, hs] at h
    | refused r => simp [steps, hs] at h

/-! The engine alone. -/

/-- With no turns fixed the engine takes every step of a BUSY command, and no turn is used up. -/
theorem steps_engine {n : Nat} {s t : State} (hturns : s.turns = []) (h : runEngine n s = .ok t) :
    ∃ k ≤ n, steps k s = .next t := by
  induction n generalizing s with
  | zero => exact ⟨0, Nat.le_refl 0, congrArg _ (Except.ok.inj h)⟩
  | succ n ih =>
    by_cases hb : s.phase = .busy
    · cases he : engineStep s with
      | error f => simp [runEngine, hb, he] at h
      | ok u =>
        have hm : s.mover = .engine := by simp only [State.mover, hturns, hb, if_true]
        have hpop : s.popTurn = s := by rw [State.popTurn, hturns, List.tail_nil, ← hturns]
        rw [runEngine_succ_busy hb he] at h
        obtain ⟨k, hk, hsteps⟩ := ih ((engineStep_ok hb he).frame.turns.trans hturns) h
        exact ⟨k + 1, Nat.succ_le_succ hk, (steps_succ (step_engine_ok hm (hpop.symm ▸ he)) k).trans hsteps⟩
    · rw [runEngine_of_not_busy hb] at h
      exact ⟨0, Nat.zero_le _, congrArg _ (Except.ok.inj h)⟩

/-- Settles O11: the first step is the issue, and the steps that follow are those of the engine's run. -/
theorem oneStepCommandEqualsItsEngineSteps : Obligations.OneStepCommandEqualsItsEngineSteps := by
  intro i s rest hb hn hturns hs
  have hm : s.mover = .host := by simp only [State.mover, hturns, hb, if_false]
  have hstep : step s = .next (issued (encodeWord i) { s with script := rest }) := by
    rw [step_host hm hs, hturns, List.tail_nil, ← hturns, hostAct_writeCmd_encode, issue_eq_ok]
    exacts [rfl, hb, hn]
  obtain ⟨t, hrun, -⟩ := exists_runEngine_issued (s := { s with script := rest }) (encodeWord i) hn
  obtain ⟨k, hk, hsteps⟩ := steps_engine (s := issued (encodeWord i) { s with script := rest }) hturns hrun
  have hexec : exec i { s with script := rest } = .next t := exec_eq_next (s := { s with script := rest }) hb hn hrun
  exact ⟨k + 1, Nat.succ_le_succ hk, (steps_succ hstep k).trans (hsteps.trans hexec.symm)⟩

/-- Settles O10: the steps reach the state the one-step form answers. -/
theorem stepwiseRunComputesTheFunction : Obligations.StepwiseRunComputesTheFunction := by
  intro i s rest hb hn hturns hs
  obtain ⟨k, hk, hsteps⟩ := oneStepCommandEqualsItsEngineSteps i s rest hb hn hturns hs
  obtain ⟨t, ht, hshows, hframe, -⟩ := exists_exec_ends (s := { s with script := rest }) i hb hn
  exact ⟨k, t, hk, hsteps.trans ht, hframe.script, hshows.ended, hshows⟩

/-! The engine and a host that only looks. -/

/-- `t` is `s` but for the host's side. -/
def SameCore (s t : State) : Prop := State.withHost t s = t

theorem SameCore.refl (s : State) : SameCore s s := rfl

theorem sameCore_withHost (h s : State) : SameCore s (State.withHost h s) := rfl

theorem SameCore.trans {s t u : State} (h : SameCore s t) (k : SameCore t u) : SameCore s u := by
  have : State.withHost u (State.withHost t s) = u := by rw [h, k]
  exact this

theorem SameCore.phase {s t : State} (h : SameCore s t) : t.phase = s.phase := by rw [← h]; rfl
theorem SameCore.params {s t : State} (h : SameCore s t) : t.params = s.params := by rw [← h]; rfl
theorem SameCore.outLen {s t : State} (h : SameCore s t) : t.outLen = s.outLen := by rw [← h]; rfl
theorem SameCore.inLen {s t : State} (h : SameCore s t) : t.inLen = s.inLen := by rw [← h]; rfl
theorem SameCore.input {s t : State} (h : SameCore s t) : t.input = s.input := by rw [← h]; rfl
theorem SameCore.remaining {s t : State} (h : SameCore s t) : remaining t = remaining s := by rw [← h]; rfl
theorem SameCore.busyInv {s t : State} (h : SameCore s t) (hs : BusyInv s) : BusyInv t := by rw [← h]; exact hs

theorem SameCore.ended {s t : State} (h : SameCore s t) (hs : s.ended) : t.ended := by
  rw [← h]
  exact hs

/-- What a readable state shows, it shows whatever the host's side. -/
theorem Shows.of_sameCore {s t : State} {r : Except InvalidInput (List Byte)} (h : Shows s r) (hs : Readable s)
    (hc : SameCore s t) : Shows t r := by
  have hres : t.result = s.result := hs.result_eq hc.phase hc.outLen (by rw [← hc]; rfl)
  rw [← hc] at hres ⊢
  cases r with
  | error e => exact h
  | ok out =>
    obtain ⟨hp, hr, he, ho, hout⟩ := h
    exact ⟨hp, hr, he, ho, hres.trans hout⟩

/-- The engine's run from `s` on ends in `u`. -/
def Completes (s u : State) : Prop := ∃ k, runEngine k s = .ok u ∧ u.phase ≠ .busy

theorem Completes.eq_of_not_busy {s u : State} (h : Completes s u) (hb : s.phase ≠ .busy) : u = s := by
  obtain ⟨k, hk, -⟩ := h
  rw [runEngine_of_not_busy hb] at hk
  exact (Except.ok.inj hk).symm

/-- A run goes on to its end from the state a step leaves. -/
theorem Completes.of_engineStep {s u v : State} (h : Completes s u) (he : engineStep s = .ok v) : Completes v u := by
  by_cases hb : s.phase = .busy
  · obtain ⟨k, hk, hu⟩ := h
    cases k with
    | zero => exact absurd (Except.ok.inj hk ▸ hb) hu
    | succ k => exact ⟨k, runEngine_succ_busy hb he k ▸ hk, hu⟩
  · rw [engineStep_not_busy hb] at he
    exact Except.ok.inj he ▸ h

/-- The run is the same under another host's side. -/
theorem Completes.withHost {s u : State} (h : Completes s u) (g : State) :
    Completes (State.withHost g s) (State.withHost g u) := by
  obtain ⟨k, hk, hu⟩ := h
  exact ⟨k, by rw [runEngine_withHost, hk]; rfl, hu⟩

theorem Completes.of_sameCore {s t u : State} (h : Completes s u) (hc : SameCore s t) :
    Completes t (State.withHost t u) := by
  have := h.withHost t
  rwa [hc] at this

/-- A BUSY command completes. -/
theorem exists_completes {s : State} (hb : s.phase = .busy) (h : BusyInv s) : ∃ u, Completes s u ∧ u.ended := by
  obtain ⟨u, hrun, hend⟩ := exists_runEngine_ended hb h
  exact ⟨u, ⟨_, hrun, hend.not_busy⟩, hend⟩

/-- The engine's turn is its step on the CORE, with the turn used up. -/
theorem exists_step_engine {s : State} (h : s.phase = .busy → BusyInv s) (hm : s.mover = .engine) :
    ∃ v, engineStep s = .ok v ∧ step s = .next (State.withHost s.popTurn v) := by
  have hv : ∃ v, engineStep s = .ok v := by
    by_cases hb : s.phase = .busy
    · exact exists_engineStep hb (h hb)
    · exact ⟨s, engineStep_not_busy hb⟩
  obtain ⟨v, hv⟩ := hv
  refine ⟨v, hv, step_engine_ok hm ?_⟩
  exact (engineStep_withHost s.popTurn s).trans (by rw [hv]; rfl)

/-- How many turns are fixed and engine steps left. Every step uses one up while there are any. -/
def turnsLeft (s : State) : Nat := s.turns.length + remaining s

theorem turnsLeft_pos {s : State} (hb : s.phase = .busy) : 0 < turnsLeft s :=
  Nat.lt_of_lt_of_le (remaining_pos hb) (Nat.le_add_left _ _)

/-- The engine's turn uses up a turn that is fixed or a step of those left. -/
theorem turnsLeft_engine {s v : State} (hm : s.mover = .engine) (he : engineStep s = .ok v) :
    turnsLeft (State.withHost s.popTurn v) < turnsLeft s := by
  show s.turns.tail.length + remaining v < s.turns.length + remaining s
  rw [List.length_tail]
  by_cases hb : s.phase = .busy
  · have := (engineStep_ok hb he).remaining_lt hb
    omega
  · rw [engineStep_not_busy hb] at he
    cases he
    have hturns : s.turns ≠ [] := fun h0 => by simp [State.mover, h0, hb] at hm
    have := List.length_pos_iff.mpr hturns
    omega

/-- The host's turn uses up a turn that is fixed, if there is one or a command is BUSY. -/
theorem turnsLeft_host {s t : State} (hm : s.mover = .host) (hc : SameCore s t) (ht : t.turns = s.turns.tail) :
    turnsLeft t ≤ turnsLeft s - 1 := by
  unfold turnsLeft
  rw [hc.remaining, ht, List.length_tail]
  by_cases h0 : s.turns = []
  · have hb : s.phase ≠ .busy := fun hb => by simp [State.mover, h0, hb] at hm
    rw [remaining_of_not_busy hb]
    omega
  · have := List.length_pos_iff.mpr h0
    omega

/-- What a CORE and a host that only looks keep while they move. -/
structure Polling (s : State) : Prop where
  busy   : s.phase = .busy → BusyInv s
  outLen : s.outLen ≤ s.params.maxOutLen
  polls  : s.hostPolls

theorem EngineMove.outLen_le {s t : State} (h : BusyInv s) (ho : s.outLen ≤ s.params.maxOutLen)
    (hm : EngineMove s t) : t.outLen ≤ t.params.maxOutLen := by
  cases hm with
  | empty | badLength | disallowed | invalid | badShift => exact Nat.zero_le _
  | finish bytes hs hfin hroom =>
    rcases hroom with rfl | hroom
    · exact h.wptr_le
    · exact hroom
  | _ => exact ho

theorem Polling.engine {s v : State} (h : Polling s) (he : engineStep s = .ok v) :
    Polling (State.withHost s.popTurn v) := by
  by_cases hb : s.phase = .busy
  · have hm := engineStep_ok hb he
    have hparams := hm.frame.params
    have hout : v.outLen ≤ v.params.maxOutLen := hm.outLen_le (h.busy hb) h.outLen
    refine ⟨fun hv => (sameCore_withHost s.popTurn v).busyInv (hm.busyInv (h.busy hb) hv), hout, fun a ha => ?_⟩
    exact (congrArg (fun p => a.polls p) hparams).trans (h.polls a ha)
  · rw [engineStep_not_busy hb] at he
    cases he
    exact ⟨h.busy, h.outLen, h.polls⟩

/-- A read in range answers a value and changes at most the counter of free values. -/
theorem exists_readPort_ok {p : Port} {s : State} (h : p.wf s.params = true) :
    ∃ v d, readPort p s = .ok (v, { s with draws := d }) := by
  cases p with
  | cmd | inLen | status | outLen | errByte => exact ⟨_, _, rfl⟩
  | ibuf i => exact ⟨_, s.draws, if_pos (of_decide_eq_true h)⟩
  | obuf j =>
    obtain ⟨d, hd⟩ := readObuf_state j s
    exact ⟨_, d, (readPort_obuf (of_decide_eq_true h)).trans (by rw [hd])⟩

theorem readActions_poll {p : Params} {n : Nat} (h : n ≤ p.maxOutLen) : ∀ a ∈ readActions n, a.polls p = true := by
  intro a ha
  rcases List.mem_append.mp ha with ha | ha
  · simp only [List.mem_cons, List.not_mem_nil, or_false] at ha
    rcases ha with rfl | rfl | rfl <;> rfl
  · obtain ⟨j, hj, rfl⟩ := List.mem_map.mp ha
    have := List.mem_range.mp hj
    exact decide_eq_true (by omega)

/-- An action that only looks is done, changes the host's side alone, and leaves a program that only looks. -/
theorem exists_hostAct_polls {a : HostAction} {s : State} (ha : a.polls s.params = true)
    (hout : s.outLen ≤ s.params.maxOutLen) (hs : s.hostPolls) :
    ∃ t, hostAct a s = .next t ∧ SameCore s t ∧ t.turns = s.turns ∧ t.hostPolls := by
  cases a with
  | read port =>
    obtain ⟨v, d, hv⟩ := exists_readPort_ok (s := s) ha
    exact ⟨{ s with draws := d, seen := ⟨port, v⟩ :: s.seen }, by simp only [hostAct, observe, hv, ofHost], rfl, rfl,
      hs⟩
  | wait =>
    by_cases hb : s.phase = .busy
    · refine ⟨_, ofHost_next_iff.mpr (waitStep_busy hb), rfl, rfl, fun b hmem => ?_⟩
      rcases List.mem_cons.mp hmem with rfl | hmem
      · rfl
      · exact hs b hmem
    · exact ⟨_, ofHost_next_iff.mpr (waitStep_not_busy hb), rfl, rfl, hs⟩
  | readResult =>
    refine ⟨_, rfl, rfl, rfl, fun b hmem => ?_⟩
    rcases List.mem_append.mp hmem with hmem | hmem
    · exact readActions_poll hout b hmem
    · exact hs b hmem
  | _ => contradiction

/-- The host's turn, when it only looks. -/
theorem Polling.exists_step_host {s : State} (h : Polling s) (hm : s.mover = .host) :
    ∃ t, step s = .next t ∧ SameCore s t ∧ t.turns = s.turns.tail ∧ Polling t := by
  cases hs : s.script with
  | nil => exact ⟨s.popTurn, step_host_nil hm hs, rfl, rfl, ⟨h.busy, h.outLen, h.polls⟩⟩
  | cons a rest =>
    have hpolls := h.polls
    rw [State.hostPolls, hs, List.forall_mem_cons] at hpolls
    obtain ⟨ha, hrest⟩ := hpolls
    obtain ⟨t, ht, hc, hturns, hp⟩ :=
      exists_hostAct_polls (s := { s with script := rest, turns := s.turns.tail }) ha h.outLen hrest
    have hc' : SameCore s t := hc
    refine ⟨t, (step_host hm hs).trans ht, hc', hturns, ⟨fun hb => hc'.busyInv (h.busy (hc'.phase ▸ hb)), ?_, hp⟩⟩
    rw [hc'.outLen, hc'.params]
    exact h.outLen

/-- R95: whoever moves when, once the fixed turns and the engine's steps are used up the command has ended, in the state
the engine's run ends in but for the host's side. -/
theorem steps_polling {n : Nat} {s u : State} (h : Polling s) (hu : Completes s u) (hn : turnsLeft s ≤ n) :
    ∃ t, steps n s = .next t ∧ SameCore u t := by
  induction n generalizing s u with
  | zero =>
    have hb : s.phase ≠ .busy := fun hb => absurd (turnsLeft_pos hb) (by omega)
    exact ⟨s, rfl, hu.eq_of_not_busy hb ▸ rfl⟩
  | succ n ih =>
    cases hm : s.mover with
    | engine =>
      obtain ⟨v, hv, hstep⟩ := exists_step_engine h.busy hm
      have hlt := turnsLeft_engine hm hv
      obtain ⟨t, ht, hc⟩ := ih (h.engine hv) ((hu.of_engineStep hv).withHost s.popTurn) (by omega)
      exact ⟨t, (steps_succ hstep n).trans ht, (sameCore_withHost _ u).trans hc⟩
    | host =>
      obtain ⟨s', hstep, hc', hturns, hp⟩ := h.exists_step_host hm
      have hle := turnsLeft_host hm hc' hturns
      obtain ⟨t, ht, hc⟩ := ih hp (hu.of_sameCore hc') (by omega)
      exact ⟨t, (steps_succ hstep n).trans ht, (sameCore_withHost _ u).trans hc⟩

theorem turnsLeft_le (s : State) : turnsLeft s ≤ s.turns.length + s.inLen + 3 := by
  have := remaining_le s
  unfold turnsLeft
  omega

/-- Settles O21: the invariant gives the run an end, and every turn brings it nearer. -/
theorem busyCommandEndsWhoeverMoves : Obligations.BusyCommandEndsWhoeverMoves := by
  intro s h hb hpolls
  obtain ⟨-, hout, -⟩ := (statusInv_busy hb).mp h.status
  obtain ⟨u, hu, hend⟩ := exists_completes hb (h.busy hb)
  obtain ⟨t, ht, hc⟩ := steps_polling ⟨h.busy, hout ▸ Nat.zero_le _, hpolls⟩ hu (turnsLeft_le s)
  exact ⟨t, ht, hc.ended hend⟩

theorem completes_issued {i : Instr} {s : State} (hn : s.inLen ≤ s.params.maxInLen) :
    ∃ u, Completes (issued (encodeWord i) s) u ∧ CommandEnds i s u := by
  obtain ⟨u, hrun, hends⟩ := exists_commandEnds i hn
  exact ⟨u, ⟨_, hrun, hends.shows.ended.not_busy⟩, hends⟩

/-- Settles O22: the run from the issue ends in a state that shows the value, and the turns only change the host's
side. -/
theorem commandShowsItsValueWhoeverMoves : Obligations.CommandShowsItsValueWhoeverMoves := by
  intro i s s₁ h hpolls
  obtain ⟨-, hn, rfl⟩ := issue_ok_iff.mp h
  obtain ⟨u, hu, hends⟩ := completes_issued (i := i) hn
  obtain ⟨t, ht, hc⟩ := steps_polling (s := issued (encodeWord i) s)
    ⟨fun _ => busyInv_issued _ hn, Nat.zero_le _, hpolls⟩ hu (turnsLeft_le _)
  exact ⟨t, ht, hc.ended hends.shows.ended, hends.shows.of_sameCore hends.readable hc⟩

/-! A host that waits. -/

/-- While BUSY a move keeps `REASON`. -/
theorem EngineMove.reason_of_busy {s t : State} (h : EngineMove s t) (ht : t.phase = .busy) : t.reason = s.reason := by
  cases h with
  | empty | badLength | disallowed | invalid | badShift | finish => contradiction
  | _ => rfl

/-- A host whose next action is WAIT, before a command that has ended or is BUSY with REASON 0. -/
structure Waiting (rest : List HostAction) (s : State) : Prop where
  busy   : s.phase = .busy → BusyInv s
  reason : s.phase = .busy → s.reason = .none
  script : s.script = .wait :: rest

theorem Waiting.engine {rest : List HostAction} {s v : State} (h : Waiting rest s) (he : engineStep s = .ok v) :
    Waiting rest (State.withHost s.popTurn v) := by
  by_cases hb : s.phase = .busy
  · have hm := engineStep_ok hb he
    exact ⟨fun hv => (sameCore_withHost s.popTurn v).busyInv (hm.busyInv (h.busy hb) hv),
      fun hv => (hm.reason_of_busy hv).trans (h.reason hb), h.script⟩
  · rw [engineStep_not_busy hb] at he
    cases he
    exact ⟨h.busy, h.reason, h.script⟩

/-- The host's turn while BUSY: WAIT reads 0x01, and waits on. -/
theorem Waiting.step_host_busy {rest : List HostAction} {s : State} (h : Waiting rest s) (hm : s.mover = .host)
    (hb : s.phase = .busy) :
    step s = .next { s with turns := s.turns.tail, seen := ⟨.status, 0x01⟩ :: s.seen } := by
  have hword : (statusWord s).toNat = 0x01 := by rw [statusWord, h.reason hb, hb]; rfl
  rw [step_host hm h.script]
  refine (ofHost_next_iff.mpr (waitStep_busy (by exact hb))).trans ?_
  rw [← hword, ← h.script]
  rfl

/-- The host's turn when the command has ended: WAIT reads its `STATUS`, and is done. -/
theorem Waiting.step_host_ended {rest : List HostAction} {s : State} (h : Waiting rest s) (hm : s.mover = .host)
    (hb : s.phase ≠ .busy) :
    step s = .next { s with
      script := rest, turns := s.turns.tail, seen := ⟨.status, (statusWord s).toNat⟩ :: s.seen } :=
  (step_host hm h.script).trans (ofHost_next_iff.mpr (waitStep_not_busy (by exact hb)))

/-- R78, R95: WAIT is done in the state the engine's run ends in but for the host's side, of which only the program, the
turns and the record of reads have changed. -/
theorem steps_wait {rest : List HostAction} {s u : State} (h : Waiting rest s) (hu : Completes s u) :
    ∃ k m t, k ≤ turnsLeft s + 1 ∧ steps k s = .next t ∧ SameCore u t ∧ t.script = rest ∧
      t.seen = ⟨.status, (statusWord t).toNat⟩ :: (List.replicate m ⟨.status, 0x01⟩ ++ s.seen) := by
  induction hn : turnsLeft s using Nat.strong_induction_on generalizing s u with
  | _ n ih =>
    cases hm : s.mover with
    | engine =>
      obtain ⟨v, hv, hstep⟩ := exists_step_engine h.busy hm
      have hlt := turnsLeft_engine hm hv
      obtain ⟨k, m, t, hk, ht, hc, hscript, hseen⟩ :=
        ih _ (by omega) (h.engine hv) ((hu.of_engineStep hv).withHost s.popTurn) rfl
      exact ⟨k + 1, m, t, by omega, (steps_succ hstep k).trans ht, (sameCore_withHost _ u).trans hc, hscript, hseen⟩
    | host =>
      by_cases hb : s.phase = .busy
      · have hstep := h.step_host_busy hm hb
        generalize hs' : ({ s with turns := s.turns.tail, seen := ⟨.status, 0x01⟩ :: s.seen } : State) = s' at hstep
        have hc' : SameCore s s' := by rw [← hs']; rfl
        have hle := turnsLeft_host hm hc' (by rw [← hs'])
        have hpos := turnsLeft_pos hb
        have hwait : Waiting rest s' := by rw [← hs']; exact ⟨h.busy, h.reason, h.script⟩
        obtain ⟨k, m, t, hk, ht, hc, hscript, hseen⟩ := ih _ (by omega) hwait (hu.of_sameCore hc') rfl
        refine ⟨k + 1, m + 1, t, by omega, (steps_succ hstep k).trans ht, (sameCore_withHost _ u).trans hc, hscript, ?_⟩
        rw [hseen, ← hs', List.replicate_succ', List.append_assoc]
        rfl
      · refine ⟨1, 0, _, by omega, (steps_one s).trans (h.step_host_ended hm hb), ?_, rfl, rfl⟩
        rw [hu.eq_of_not_busy hb]
        rfl

/-- Settles O24: by `steps_wait`, whose premises the invariant gives. -/
theorem waitSeesTheEndOfTheCommand : Obligations.WaitSeesTheEndOfTheCommand := by
  intro s rest h hb hs
  obtain ⟨hreason, -, -⟩ := (statusInv_busy hb).mp h.status
  obtain ⟨u, hu, hend⟩ := exists_completes hb (h.busy hb)
  obtain ⟨k, m, t, hk, ht, hc, hscript, hseen⟩ := steps_wait ⟨h.busy, fun _ => hreason, hs⟩ hu
  have hle := turnsLeft_le s
  exact ⟨k, m, t, by omega, ht, hscript, hc.ended hend, hseen⟩

end Sys2Proof.Machine
end

section
/-! SUPPORT. RUN and RECODE, action by action, whoever moves when (30_encoding.md R78, R79). -/

namespace Sys2Proof.Machine

/-- The machine comes from `s` to `t`. -/
def Reaches (s t : State) : Prop := ∃ k, steps k s = .next t

theorem Reaches.refl (s : State) : Reaches s s := ⟨0, rfl⟩

theorem Reaches.trans {s t u : State} (h : Reaches s t) (h' : Reaches t u) : Reaches s u := by
  obtain ⟨k, hk⟩ := h
  obtain ⟨j, hj⟩ := h'
  exact ⟨k + j, (steps_add hk j).trans hj⟩

/-- With no command BUSY the engine's turns pass, and then the host acts. -/
theorem steps_host_action {s : State} {a : HostAction} {rest : List HostAction} (hb : s.phase ≠ .busy)
    (hs : s.script = a :: rest) :
    ∃ k turns, steps k s = hostAct a { s with script := rest, turns := turns } := by
  induction hturns : s.turns generalizing s with
  | nil =>
    have hm : s.mover = .host := by simp only [State.mover, hturns, hb, if_false]
    exact ⟨1, _, (steps_one s).trans (step_host hm hs)⟩
  | cons agent turns ih =>
    cases agent with
    | host =>
      have hm : s.mover = .host := by simp only [State.mover, hturns]
      exact ⟨1, _, (steps_one s).trans (step_host hm hs)⟩
    | engine =>
      have hm : s.mover = .engine := by simp only [State.mover, hturns]
      have hstep : step s = .next s.popTurn := step_engine_ok hm (engineStep_not_busy (s := s.popTurn) hb)
      obtain ⟨k, ts, hk⟩ := ih (s := s.popTurn) hb hs (by rw [popTurn_turns, hturns]; rfl)
      exact ⟨k + 1, ts, (steps_succ hstep k).trans hk⟩

/-- An action that is done whatever turns are left. -/
theorem reaches_of_hostAct {s : State} {a : HostAction} {rest : List HostAction} {f : List Agent → State}
    (hb : s.phase ≠ .busy) (hs : s.script = a :: rest)
    (hact : ∀ turns, hostAct a { s with script := rest, turns := turns } = .next (f turns)) :
    ∃ turns, Reaches s (f turns) := by
  obtain ⟨k, turns, hk⟩ := steps_host_action hb hs
  exact ⟨turns, k, hk.trans (hact turns)⟩

/-! Writing the input. -/

/-- `s` with the input buffer `m`, the program `script` and the turns `turns`. -/
def withProgram (s : State) (m : Memory) (script : List HostAction) (turns : List Agent) : State :=
  { s with ibuf := m, script := script, turns := turns }

/-- LOAD of `d` from index `start` on. -/
theorem reaches_load {d : List Byte} {start : Nat} {s : State} (hb : s.phase ≠ .busy)
    (hd : start + d.length ≤ s.params.maxInLen) (m : Memory) (rest : List HostAction) (turns : List Agent) :
    ∃ turns', Reaches (withProgram s m (loadFrom start d ++ rest) turns)
      (withProgram s (Memory.writeAll m start d) rest turns') := by
  induction d generalizing start m turns with
  | nil => exact ⟨turns, .refl _⟩
  | cons b d ih =>
    rw [List.length_cons] at hd
    obtain ⟨ts, h1⟩ := reaches_of_hostAct (s := withProgram s m (loadFrom start (b :: d) ++ rest) turns) hb rfl
      fun ts => hostAct_writeIbuf (s := withProgram s m (loadFrom (start + 1) d ++ rest) ts) b
        (show start < s.params.maxInLen by omega) hb
    obtain ⟨ts', h2⟩ := ih (start := start + 1) (by omega) (Memory.write m start b) ts
    exact ⟨ts', h1.trans h2⟩

/-- The result bytes from index `start` on, as the host reads them. -/
def resultFrom (s : State) (start n : Nat) : List Byte := (List.range' start n).map fun j => (readObuf j s).1

theorem resultFrom_zero (s : State) : resultFrom s 0 s.outLen = s.result := by
  rw [resultFrom, State.result, List.range_eq_range']

/-- A copied byte is a result byte. -/
theorem hostAct_copyByte {s : State} {j : Nat} (hr : Readable s) (hj : j < s.outLen)
    (hout : s.outLen ≤ s.params.maxOutLen) (hin : j < s.params.maxInLen) (m : Memory) (script : List HostAction)
    (turns : List Agent) :
    hostAct (.copyByte j) (withProgram s m script turns) =
      .next (withProgram s (Memory.write m j (readObuf j s).1) script turns) := by
  have hp := (hr j hj).1
  rw [← hr.readObuf_eq (t := withProgram s m script turns) rfl rfl rfl hj]
  refine ofHost_next_iff.mpr (copyByte_ok_iff.mpr ⟨Nat.lt_of_lt_of_le hj hout, hin, ?_, ?_⟩)
  · show s.phase ≠ .busy
    simp [hp]
  · rw [readObuf_result (s := withProgram s m script turns) hp hj]
    rfl

/-- The copies of RECODE from index `start` on. -/
theorem reaches_copies {n start : Nat} {s : State} (hb : s.phase ≠ .busy) (hr : Readable s)
    (hout : s.outLen ≤ s.params.maxOutLen) (hn : start + n ≤ s.outLen) (hin : start + n ≤ s.params.maxInLen)
    (m : Memory) (rest : List HostAction) (turns : List Agent) :
    ∃ turns', Reaches (withProgram s m ((List.range' start n).map .copyByte ++ rest) turns)
      (withProgram s (Memory.writeAll m start (resultFrom s start n)) rest turns') := by
  induction n generalizing start m turns with
  | zero => exact ⟨turns, .refl _⟩
  | succ n ih =>
    obtain ⟨ts, h1⟩ := reaches_of_hostAct
      (s := withProgram s m ((List.range' start (n + 1)).map .copyByte ++ rest) turns) hb rfl
      (hostAct_copyByte hr (by omega) hout (by omega) m ((List.range' (start + 1) n).map .copyByte ++ rest))
    obtain ⟨ts', h2⟩ := ih (start := start + 1) (by omega) (by omega) (Memory.write m start (readObuf start s).1) ts
    exact ⟨ts', h1.trans h2⟩

/-- An input written from index 0 on is read back. -/
theorem input_of_written {s : State} {m : Memory} {d : List Byte} (hm : s.ibuf = Memory.writeAll m 0 d)
    (hn : s.inLen = d.length) : s.input = d := by
  apply List.ext_getElem
  · rw [input_length, hn]
  · intro j h1 h2
    simp only [State.input, List.getElem_map, List.getElem_range, State.ibufByte, hm, Memory.read_writeAll]
    simp [h2]

/-! Reading the result. -/

/-- `s` with the record of reads `seen`, the program `script` and the turns `turns`. -/
def withSeen (s : State) (seen : List Seen) (script : List HostAction) (turns : List Agent) : State :=
  { s with seen := seen, script := script, turns := turns }

/-- The reads of the result bytes from index `start` on, newest first. -/
def resultReadsFrom (s : State) (start n : Nat) : List Seen :=
  ((List.range' start n).map fun j => Seen.mk (.obuf j) (readObuf j s).1.toNat).reverse

theorem resultReadsFrom_succ (s : State) (start n : Nat) (seen : List Seen) :
    resultReadsFrom s start (n + 1) ++ seen =
      resultReadsFrom s (start + 1) n ++ Seen.mk (.obuf start) (readObuf start s).1.toNat :: seen := by
  simp [resultReadsFrom, List.range'_succ]

/-- A read that depends on the CORE alone is recorded. -/
theorem reaches_read {s : State} {port : Port} {v : Nat} (hb : s.phase ≠ .busy)
    (hread : ∀ seen script turns,
      readPort port (withSeen s seen script turns) = .ok (v, withSeen s seen script turns))
    (seen : List Seen) (rest : List HostAction) (turns : List Agent) :
    ∃ turns', Reaches (withSeen s seen (.read port :: rest) turns) (withSeen s (⟨port, v⟩ :: seen) rest turns') :=
  reaches_of_hostAct (s := withSeen s seen (.read port :: rest) turns) hb rfl
    fun ts => hostAct_read (hread seen rest ts)

/-- A read of a result byte gives the byte. -/
theorem Readable.readPort_eq {s : State} {j : Nat} (hr : Readable s) (hj : j < s.outLen)
    (hout : s.outLen ≤ s.params.maxOutLen) (seen : List Seen) (script : List HostAction) (turns : List Agent) :
    readPort (.obuf j) (withSeen s seen script turns) =
      .ok ((readObuf j s).1.toNat, withSeen s seen script turns) := by
  rw [← hr.readObuf_eq (t := withSeen s seen script turns) rfl rfl rfl hj,
    readPort_obuf (s := withSeen s seen script turns) (Nat.lt_of_lt_of_le hj hout),
    readObuf_result (s := withSeen s seen script turns) (hr j hj).1 hj]

theorem reaches_obuf_reads {n start : Nat} {s : State} (hb : s.phase ≠ .busy) (hr : Readable s)
    (hout : s.outLen ≤ s.params.maxOutLen) (hn : start + n ≤ s.outLen) (seen : List Seen) (rest : List HostAction)
    (turns : List Agent) :
    ∃ turns', Reaches (withSeen s seen ((List.range' start n).map (fun j => .read (.obuf j)) ++ rest) turns)
      (withSeen s (resultReadsFrom s start n ++ seen) rest turns') := by
  induction n generalizing start seen turns with
  | zero => exact ⟨turns, .refl _⟩
  | succ n ih =>
    obtain ⟨ts, h1⟩ := reaches_read hb (hr.readPort_eq (show start < s.outLen by omega) hout) seen
      ((List.range' (start + 1) n).map (fun j => .read (.obuf j)) ++ rest) turns
    obtain ⟨ts', h2⟩ := ih (start := start + 1) (by omega) (Seen.mk (.obuf start) (readObuf start s).1.toNat :: seen) ts
    rw [resultReadsFrom_succ]
    exact ⟨ts', h1.trans h2⟩

theorem resultReads_eq (s : State) : resultReads s =
    resultReadsFrom s 0 s.outLen ++
      [⟨.errByte, s.errByte.toNat⟩, ⟨.outLen, s.outLen⟩, ⟨.status, (statusWord s).toNat⟩] := by
  rw [resultReads, resultReadsFrom, List.range_eq_range']

/-- The reads READ makes do not depend on the host's side. -/
theorem Readable.resultReads_eq {s : State} (h : Readable s) (seen : List Seen) (script : List HostAction)
    (turns : List Agent) : resultReads (withSeen s seen script turns) = resultReads s := by
  have hmap :
      (List.range s.outLen).map (fun j => Seen.mk (.obuf j) (readObuf j (withSeen s seen script turns)).1.toNat) =
      (List.range s.outLen).map (fun j => Seen.mk (.obuf j) (readObuf j s).1.toNat) :=
    List.map_congr_left fun j hj => by
      rw [h.readObuf_eq (t := withSeen s seen script turns) rfl rfl rfl (List.mem_range.mp hj)]
  exact congrArg (fun l => l.reverse ++ _) hmap

/-- READ reads `STATUS`, `OUT_LEN`, `ERR_BYTE` and the result bytes (R78). -/
theorem reaches_readResult {s : State} (hb : s.phase ≠ .busy) (hr : Readable s) (hout : s.outLen ≤ s.params.maxOutLen)
    (seen : List Seen) (rest : List HostAction) (turns : List Agent) :
    ∃ turns', Reaches (withSeen s seen (.readResult :: rest) turns)
      (withSeen s (resultReads s ++ seen) rest turns') := by
  obtain ⟨t1, h1⟩ := reaches_of_hostAct (s := withSeen s seen (.readResult :: rest) turns) hb rfl
    (f := fun ts => withSeen s seen (readActions s.outLen ++ rest) ts) fun _ => rfl
  obtain ⟨t2, h2⟩ := reaches_read hb (port := .status) (v := (statusWord s).toNat) (fun _ _ _ => rfl) seen
    (.read .outLen :: .read .errByte :: (List.range s.outLen).map (fun j => .read (.obuf j)) ++ rest) t1
  obtain ⟨t3, h3⟩ := reaches_read hb (port := .outLen) (v := s.outLen) (fun _ _ _ => rfl) _
    (.read .errByte :: (List.range s.outLen).map (fun j => .read (.obuf j)) ++ rest) t2
  obtain ⟨t4, h4⟩ := reaches_read hb (port := .errByte) (v := s.errByte.toNat) (fun _ _ _ => rfl) _
    ((List.range s.outLen).map (fun j => .read (.obuf j)) ++ rest) t3
  obtain ⟨t5, h5⟩ := reaches_obuf_reads (start := 0) hb hr hout (Nat.zero_add _).le _ rest t4
  rw [← List.range_eq_range'] at h5
  rw [resultReads_eq, List.append_assoc]
  exact ⟨t5, h1.trans (h2.trans (h3.trans (h4.trans h5)))⟩

/-! The command. -/

theorem Readable.of_sameCore {s t : State} (h : Readable s) (hc : SameCore s t) : Readable t := by
  rw [← hc]
  exact h

theorem runEngine_outLen_le {k : Nat} {s t : State} (hs : s.phase = .busy → BusyInv s)
    (ho : s.outLen ≤ s.params.maxOutLen) (h : runEngine k s = .ok t) : t.outLen ≤ t.params.maxOutLen :=
  (runEngine_keeps (P := fun u => (u.phase = .busy → BusyInv u) ∧ u.outLen ≤ u.params.maxOutLen)
    (fun _ _ hb ⟨hi, ho⟩ hm => ⟨hm.busyInv (hi hb), hm.outLen_le (hi hb) ho⟩) ⟨hs, ho⟩ h).2

/-- From the issue of a command, WAIT and READ reach its end, with its value shown and read (R78). -/
theorem reaches_end_and_read (i : Instr) {s : State} {rest : List HostAction} (hn : s.inLen ≤ s.params.maxInLen)
    (hs : s.script = .wait :: .readResult :: rest) :
    ∃ m t, Reaches (issued (encodeWord i) s) t ∧ t.script = rest ∧ t.inLen = s.inLen ∧ t.input = s.input ∧
      Shows t (codec i s.input) ∧
      t.seen = resultReads t ++ ⟨.status, (statusWord t).toNat⟩ :: (List.replicate m ⟨.status, 0x01⟩ ++ s.seen) := by
  obtain ⟨u, hu, hends⟩ := completes_issued (i := i) hn
  obtain ⟨k, m, t, -, ht, hc, hscript, hseen⟩ := steps_wait (s := issued (encodeWord i) s)
    ⟨fun _ => busyInv_issued _ hn, fun _ => rfl, hs⟩ hu
  have hb : t.phase ≠ .busy := (hc.ended hends.shows.ended).not_busy
  have hr : Readable t := hends.readable.of_sameCore hc
  have hout : t.outLen ≤ t.params.maxOutLen := by
    obtain ⟨_, hrun, -⟩ := hu
    rw [hc.outLen, hc.params]
    exact runEngine_outLen_le (s := issued (encodeWord i) s) (fun _ => busyInv_issued _ hn) (Nat.zero_le _) hrun
  obtain ⟨ts, hread⟩ := reaches_readResult hb hr hout t.seen rest t.turns
  have hstart : withSeen t t.seen (.readResult :: rest) t.turns = t := by rw [← hscript]; rfl
  rw [hstart] at hread
  generalize hv : withSeen t (resultReads t ++ t.seen) rest ts = v at hread
  have hcv : SameCore u v := hc.trans (by rw [← hv]; rfl)
  refine ⟨m, v, .trans ⟨k, ht⟩ hread, by rw [← hv]; rfl, hcv.inLen.trans hends.frame.inLen,
    hcv.input.trans hends.frame.input, hends.shows.of_sameCore hends.readable hcv, ?_⟩
  rw [← hv, hr.resultReads_eq]
  exact congrArg (resultReads t ++ ·) hseen

/-- SETLEN and a command's word issue the command. -/
theorem reaches_issue (i : Instr) {n : Nat} {s : State} {rest : List HostAction} (hb : s.phase ≠ .busy)
    (hn : n ≤ s.params.maxInLen) (hs : s.script = .writeInLen n :: .writeCmd (encode i) :: rest) :
    ∃ turns, Reaches s (issued (encodeWord i) { s with inLen := n, script := rest, turns := turns }) := by
  have hwidth : n < 2 ^ s.params.lenW :=
    Nat.lt_of_le_of_lt (hn.trans (maxInLen_le_maxOutLen _)) (maxOutLen_lt _)
  obtain ⟨t1, h1⟩ := reaches_of_hostAct hb hs fun ts => hostAct_writeInLen
    (s := { s with script := .writeCmd (encode i) :: rest, turns := ts }) hwidth hb
  obtain ⟨t2, h2⟩ := reaches_of_hostAct
    (s := { s with inLen := n, script := .writeCmd (encode i) :: rest, turns := t1 }) hb rfl
    (f := fun ts => issued (encodeWord i) { s with inLen := n, script := rest, turns := ts }) fun ts => by
      rw [hostAct_writeCmd_encode, issue_eq_ok]
      exacts [rfl, hb, hn]
  exact ⟨t2, h1.trans h2⟩

/-- SETLEN, a command's word, WAIT and READ on an input `d` that is written. -/
theorem reaches_command (i : Instr) {d : List Byte} {s : State} {m : Memory} {rest : List HostAction}
    (hb : s.phase ≠ .busy) (hd : d.length ≤ s.params.maxInLen) (hm : s.ibuf = Memory.writeAll m 0 d)
    (hs : s.script = .writeInLen d.length :: .writeCmd (encode i) :: .wait :: .readResult :: rest) :
    ∃ n t, Reaches s t ∧ t.script = rest ∧ t.inLen = d.length ∧ t.input = d ∧ Shows t (codec i d) ∧
      t.seen = resultReads t ++ ⟨.status, (statusWord t).toNat⟩ :: (List.replicate n ⟨.status, 0x01⟩ ++ s.seen) := by
  obtain ⟨ts, h1⟩ := reaches_issue i hb hd hs
  have hinput : State.input { s with inLen := d.length, script := .wait :: .readResult :: rest, turns := ts } = d :=
    input_of_written hm rfl
  obtain ⟨n, t, h2, h⟩ := reaches_end_and_read i
    (s := { s with inLen := d.length, script := .wait :: .readResult :: rest, turns := ts }) hd rfl
  rw [hinput] at h
  exact ⟨n, t, h1.trans h2, h⟩

/-- Settles O48: LOAD writes the input, and the command runs on it. -/
theorem runComputesOnTheLoadedBytes : Obligations.RunComputesOnTheLoadedBytes := by
  intro i d s rest hb hd hs
  obtain ⟨ts, h1⟩ := reaches_load (d := d) (start := 0) hb (by omega) s.ibuf
    (.writeInLen d.length :: .writeCmd (encode i) :: .wait :: .readResult :: rest) s.turns
  have hstart : withProgram s s.ibuf (loadFrom 0 d ++
      .writeInLen d.length :: .writeCmd (encode i) :: .wait :: .readResult :: rest) s.turns = s := by
    rw [show loadFrom 0 d ++ .writeInLen d.length :: .writeCmd (encode i) :: .wait :: .readResult :: rest = s.script by
      rw [hs, runActions, List.append_assoc]; rfl]
    rfl
  rw [hstart] at h1
  obtain ⟨n, t, h2, h⟩ := reaches_command i (s := withProgram s (Memory.writeAll s.ibuf 0 d)
    (.writeInLen d.length :: .writeCmd (encode i) :: .wait :: .readResult :: rest) ts) hb hd rfl rfl
  obtain ⟨k, hk⟩ := h1.trans h2
  exact ⟨k, n, t, hk, h⟩

theorem recode_encode (i : Instr) (s : State) : recode (encode i) s = if s.phase = .done then
    .ok { s with script := recodeActions (encode i) s.outLen ++ s.script } else .error .recodeOutsideDone := by
  simp only [recode, decode_encode]

/-- RECODE puts its copies and the command at the head of the host's program. -/
theorem reaches_recode (i : Instr) {s : State} {rest : List HostAction} (hp : s.phase = .done)
    (hs : s.script = .recode (encode i) :: rest) :
    ∃ turns, Reaches s (withProgram s s.ibuf ((List.range' 0 s.outLen).map .copyByte ++
      .writeInLen s.outLen :: .writeCmd (encode i) :: .wait :: .readResult :: rest) turns) := by
  have hactions : recodeActions (encode i) s.outLen ++ rest = (List.range' 0 s.outLen).map .copyByte ++
      .writeInLen s.outLen :: .writeCmd (encode i) :: .wait :: .readResult :: rest := by
    rw [recodeActions, List.append_assoc, List.range_eq_range']
    rfl
  rw [← hactions]
  exact reaches_of_hostAct (by simp [hp]) hs fun ts =>
    ofHost_next_iff.mpr ((recode_encode i { s with script := rest, turns := ts }).trans (if_pos hp))

theorem State.Inv.outLen_le {s : State} (h : s.Inv) (hp : s.phase = .done) : s.outLen ≤ s.params.maxOutLen := by
  have hstatus := h.status
  simp only [StatusInv, hp] at hstatus
  obtain ⟨-, hout, -⟩ := hstatus
  exact hout ▸ h.wptrRange

/-- A copy past the end of `IBUF` is refused (R141). -/
theorem exists_copyByte_eq_refused {s : State} {j : Nat} (hj : s.params.maxInLen ≤ j) :
    ∃ r, hostAct (.copyByte j) s = .refused r :=
  exists_ofHost_eq_refused fun _ ht => Nat.not_lt.mpr hj (copyByte_ok_iff.mp ht).2.1

/-- The indices of a longer result, split at the end of `IBUF`. -/
theorem range'_split {n len : Nat} (h : n < len) :
    List.range' 0 len = List.range' 0 n ++ n :: List.range' (n + 1) (len - n - 1) := by
  obtain ⟨k, rfl⟩ : ∃ k, len = n + (k + 1) := ⟨len - n - 1, by omega⟩
  rw [← List.range'_append_1, Nat.zero_add, List.range'_succ]
  congr 3
  omega

/-- Settles O49: the copies write the result into the input, and the command runs on it; the copy past the end of `IBUF`
is refused. -/
theorem recodeRunsOnTheLastResult : Obligations.RecodeRunsOnTheLastResult := by
  refine ⟨fun i s rest h hp hn hs => ?_, fun i s rest h hp hn hs => ?_, fun i s hp => ?_⟩
  · have hb : s.phase ≠ .busy := by simp [hp]
    have hlen : s.result.length = s.outLen := by simp [State.result]
    obtain ⟨t1, h1⟩ := reaches_recode i hp hs
    obtain ⟨t2, h2⟩ := reaches_copies (start := 0) hb (h.readable hb) (h.outLen_le hp) (Nat.zero_add _).le
      (by omega) s.ibuf (.writeInLen s.outLen :: .writeCmd (encode i) :: .wait :: .readResult :: rest) t1
    rw [resultFrom_zero] at h2
    obtain ⟨n, t, h3, hscript, -, hinput, hshows, -⟩ := reaches_command i (d := s.result)
      (s := withProgram s (Memory.writeAll s.ibuf 0 s.result)
        (.writeInLen s.outLen :: .writeCmd (encode i) :: .wait :: .readResult :: rest) t2)
      hb (hlen ▸ hn) rfl (by rw [hlen]; rfl)
    obtain ⟨k, hk⟩ := h1.trans (h2.trans h3)
    exact ⟨k, t, hk, hscript, hinput, hshows⟩
  · have hb : s.phase ≠ .busy := by simp [hp]
    obtain ⟨t1, h1⟩ := reaches_recode i hp hs
    rw [range'_split hn, List.map_append, List.append_assoc] at h1
    obtain ⟨t2, h2⟩ := reaches_copies (start := 0) (n := s.params.maxInLen) hb (h.readable hb) (h.outLen_le hp)
      (by omega) (Nat.zero_add _).le s.ibuf _ t1
    obtain ⟨k, hk⟩ := h1.trans h2
    obtain ⟨j, t3, hj⟩ := steps_host_action (s := withProgram s _ _ t2) hb rfl
    obtain ⟨r, hr⟩ := exists_copyByte_eq_refused (s := withProgram s _ _ t3) (Nat.le_refl s.params.maxInLen)
    exact ⟨k + j, r, (steps_add hk j).trans (hj.trans hr)⟩
  · rw [hostAct, recode_encode, if_neg hp]
    rfl

end Sys2Proof.Machine
end

section
/-! SUPPORT. Buffers that read alike (20_memory.md R42), and platforms of several CORES (00_scope.md R12,
60_exceptions.md R133). -/

namespace Sys2Proof.Machine

/-! Buffers. -/

/-- An index below every listed one has not been written. -/
theorem Memory.read_eq_none {m : Memory} {a : Nat} (h : ∀ c ∈ m, a < c.1) : Memory.read m a = none := by
  induction m with
  | nil => rfl
  | cons c rest ih =>
    obtain ⟨hc, hrest⟩ := List.forall_mem_cons.mp h
    rw [Memory.read, if_neg (Nat.ne_of_lt hc), ih hrest]

theorem Memory.read_cons_same (k : Nat) (v : Byte) (rest : Memory) : Memory.read ((k, v) :: rest) k = some v :=
  if_pos rfl

theorem Memory.read_cons_other {k a : Nat} (h : a ≠ k) (v : Byte) (rest : Memory) :
    Memory.read ((k, v) :: rest) a = Memory.read rest a := if_neg h

/-- The first index of one of two buffers that read alike is not below that of the other. -/
theorem Memory.head_le {k k' : Nat} {v v' : Byte} {r r' : Memory} (h' : Memory.wf ((k', v') :: r'))
    (hread : Memory.read ((k, v) :: r) k = Memory.read ((k', v') :: r') k) : k' ≤ k := by
  by_contra hlt
  obtain ⟨hk', -⟩ := List.pairwise_cons.mp h'
  rw [Memory.read_cons_same, Memory.read_eq_none (List.forall_mem_cons.mpr
    ⟨Nat.lt_of_not_le hlt, fun c hc => (Nat.lt_of_not_le hlt).trans (hk' c hc)⟩)] at hread
  contradiction

/-- Settles O54: by induction along both lists, whose first indices and bytes agree. -/
theorem buffersThatReadAlikeAreEqual : Obligations.BuffersThatReadAlikeAreEqual := by
  intro m m' h h' hread
  induction m generalizing m' with
  | nil =>
    cases m' with
    | nil => rfl
    | cons c' r' =>
      have := hread c'.1
      rw [Memory.read_nil, Memory.read_cons_same] at this
      contradiction
  | cons c r ih =>
    obtain ⟨k, v⟩ := c
    cases m' with
    | nil =>
      have := hread k
      rw [Memory.read_nil, Memory.read_cons_same] at this
      contradiction
    | cons c' r' =>
      obtain ⟨k', v'⟩ := c'
      obtain rfl : k = k' :=
        Nat.le_antisymm (Memory.head_le h (hread k').symm) (Memory.head_le h' (hread k))
      obtain ⟨hk, hr⟩ := List.pairwise_cons.mp h
      obtain ⟨hk', hr'⟩ := List.pairwise_cons.mp h'
      have hv := hread k
      rw [Memory.read_cons_same, Memory.read_cons_same] at hv
      have hrest : ∀ a, Memory.read r a = Memory.read r' a := fun a => by
        by_cases ha : a = k
        · rw [ha, Memory.read_eq_none hk, Memory.read_eq_none hk']
        · rw [← Memory.read_cons_other ha v r, hread a, Memory.read_cons_other ha]
      rw [Option.some.inj hv, ih r' hr hr' hrest]

/-! Platforms. -/

/-- A step of a platform is a step of one of its CORES. -/
theorem stepAt_next_iff {P Q : Platform} {k : Nat} :
    P.stepAt k = some (.next Q) ↔ ∃ s t, P.cores[k]? = some s ∧ step s = .next t ∧ Q = ⟨P.cores.set k t⟩ := by
  unfold Platform.stepAt
  cases hs : P.cores[k]? with
  | none => simp
  | some s =>
    cases ht : step s with
    | next t => simp [eq_comm, ht]
    | fault f => simp [ht]
    | refused r => simp [ht]

/-- Settles O55: the steps set different entries of the list. -/
theorem instancesAreIndependent : Obligations.InstancesAreIndependent := by
  refine ⟨fun P Q k j h hjk => ?_, fun P Q R k j hjk hQ hR => ?_⟩
  · obtain ⟨s, t, -, -, rfl⟩ := stepAt_next_iff.mp h
    exact List.getElem?_set_ne hjk.symm
  · obtain ⟨s, t, hs, ht, rfl⟩ := stepAt_next_iff.mp hQ
    obtain ⟨s', t', hs', ht', rfl⟩ := stepAt_next_iff.mp hR
    rw [List.getElem?_set_ne hjk.symm] at hs'
    refine ⟨⟨P.cores.set j t'⟩, stepAt_next_iff.mpr ⟨s', t', hs', ht', rfl⟩,
      stepAt_next_iff.mpr ⟨s, t, ?_, ht, ?_⟩⟩
    · exact (List.getElem?_set_ne hjk).trans hs
    · rw [List.set_comm _ _ hjk.symm]

theorem Platform.wf_iff {P : Platform} : P.wf = true ↔
    1 ≤ P.cores.length ∧ (∀ s ∈ P.cores, s.params.wf = true) ∧
      P.cores.map State.inst = List.range P.cores.length := by
  simp [Platform.wf, and_assoc]

/-- The CORES after reset, numbered from `k` on. -/
theorem resetFrom_getElem? (k : Nat) (ps : List Params) (j : Nat) :
    (resetFrom k ps)[j]? = ps[j]?.map fun p => { State.resetFor p with inst := k + j } := by
  induction ps generalizing k j with
  | nil => rfl
  | cons p ps ih =>
    cases j with
    | zero => rfl
    | succ j =>
      rw [resetFrom, List.getElem?_cons_succ, List.getElem?_cons_succ, ih, Nat.add_right_comm, Nat.add_assoc]

theorem resetFrom_params (k : Nat) (ps : List Params) : (resetFrom k ps).map State.params = ps := by
  induction ps generalizing k with
  | nil => rfl
  | cons p ps ih => rw [resetFrom, List.map_cons, ih]; rfl

theorem resetFrom_inst (k : Nat) (ps : List Params) :
    (resetFrom k ps).map State.inst = List.range' k ps.length := by
  induction ps generalizing k with
  | nil => rfl
  | cons p ps ih => rw [resetFrom, List.map_cons, ih, List.length_cons, List.range'_succ]

theorem resetFrom_length (k : Nat) (ps : List Params) : (resetFrom k ps).length = ps.length := by
  rw [← List.length_map State.params, resetFrom_params]

/-- An entry set to a CORE with the same value of `f` leaves the list of these values as it is. -/
theorem map_set_eq {α : Type} {f : State → α} {l : List State} {k : Nat} {s t : State} (hs : l[k]? = some s)
    (h : f t = f s) : (l.set k t).map f = l.map f := by
  obtain ⟨hk, rfl⟩ := List.getElem?_eq_some_iff.mp hs
  rw [List.map_set, h, ← List.getElem_map f (h := by simpa using hk), List.set_getElem_self]

/-- Settles O56: reset numbers the CORES in order, and a step changes neither parameters nor numbers. -/
theorem platformKeepsItsForm : Obligations.PlatformKeepsItsForm := by
  refine ⟨fun ps hlen hps => ?_, fun P Q k h hstep => ?_, fun ps k p hp => ?_⟩
  · refine Platform.wf_iff.mpr ⟨?_, fun s hs => ?_, ?_⟩
    · exact (resetFrom_length 0 ps).symm ▸ hlen
    · have hmem := List.mem_map_of_mem (f := State.params) hs
      rw [Platform.resetFor, resetFrom_params] at hmem
      exact hps _ hmem
    · exact (resetFrom_inst 0 ps).trans (by rw [List.range_eq_range', Platform.resetFor, resetFrom_length])
  · obtain ⟨s, t, hs, ht, rfl⟩ := stepAt_next_iff.mp hstep
    obtain ⟨hparams, hinst⟩ := stepKeepsTheParameters s t ht
    obtain ⟨h1, hwf, hnum⟩ := Platform.wf_iff.mp h
    refine Platform.wf_iff.mpr ⟨by rwa [List.length_set], fun u hu => ?_, ?_⟩
    · have hmem := List.mem_map_of_mem (f := State.params) hu
      rw [map_set_eq hs hparams] at hmem
      obtain ⟨u', hu', heq⟩ := List.mem_map.mp hmem
      exact heq ▸ hwf u' hu'
    · rw [map_set_eq hs hinst, hnum, List.length_set]
  · have hget := resetFrom_getElem? 0 ps k
    rw [hp, Option.map_some, Nat.zero_add] at hget
    refine ⟨_, hget, rfl, rfl, rfl, fun i => ⟨rfl, ?_⟩⟩
    rw [readObuf_of_not_done (by simp)]

end Sys2Proof.Machine
end
